-- ==== Sys2Proof/Word.lean ====
section
/-! DEFINITION. The word types of the ktchip8 CORE and their plainest slices (spec/00_scope.md rules R5, R6;
spec/10_state.md rules R20, R24, R25, R28). Every value is unsigned; bit 0 is the least significant bit. -/

namespace Sys2Proof

/-- An 8-bit value: a general register, a timer, a memory cell, an immediate byte (R20, R29, R31). -/
abbrev Byte := BitVec 8

/-- A 16-bit value: `I`, `pc`, a stack slot, an instruction word (R24, R25, R28, R90). -/
abbrev Word := BitVec 16

/-- A 12-bit address field `nnn` as it stands in an instruction word (R91). -/
abbrev Addr12 := BitVec 12

/-- The number of a general register, `V[0]` to `V[15]` (R20). -/
abbrev Reg := Fin 16

/-- `zext_16` of an 8-bit value (R6). -/
def zextByte (b : Byte) : Word := b.setWidth 16

/-- `zext_16` of a 12-bit address (R6, R93). -/
def zextAddr (n : Addr12) : Word := n.setWidth 16

end Sys2Proof
end

