-- ==== Sys2Proof/Config.lean ====
section
/-! DEFINITION. What one implementation of the ktchip8 CORE fixes (spec/00_scope.md rule R4) and the values the
spec leaves free: the answers of the key source and of the random source, the schedule of the two agents, the
instruction rate. A free value is an opaque constant, so no proof can see what it is (log entries 1, 2, 3, 20). -/

namespace Sys2Proof

/-- One of the 16 keys, numbered 0 to 15 (R190; the count is the spec's general knowledge G6, log entry 17). -/
abbrev Key := Fin 16

/-- One sample of the key source (R190): the keys that are down at that moment, the one the source reports to
`AnyKey` at the front. An empty list is "no key down". Every list obeys the consistency rule of R190, and every
answer that obeys it is some list (log entry 3). -/
abbrev KeySample := List Key

/-- The two agents whose atomic transitions interleave (R233). -/
inductive Agent where
  | instruction
  | timer
  deriving DecidableEq, Repr, Inhabited

namespace Config

/-- `MEM_SIZE` (R4, R31): addresses 0 to 4095. -/
def memSize : Nat := 4096

/-- `PROG_BASE` (R4): where the ROM image stands and where the first fetch goes. -/
def progBase : Nat := 0x200

/-- `FONT_BASE` (R4). -/
def fontBase : Nat := 0

/-- Bytes of one glyph (R61, R210). -/
def glyphBytes : Nat := 5

/-- Length of `FONT`: 16 glyphs of 5 bytes (R4, R262). -/
def fontBytes : Nat := 80

/-- The longest ROM image: `L <= 3584` (R261). -/
def romMax : Nat := 3584

/-- Framebuffer width and height in pixels (R4, R32). -/
def fbWidth : Nat := 64

/-- Framebuffer height in pixels (R4, R32). -/
def fbHeight : Nat := 32

/-- Nominal ticks per second (R4, R269); no rule reads it. -/
def tickHz : Nat := 60

/-- `CPU_RATE` (R4, R269): left open by the spec and read by no rule. -/
opaque cpuRate : Nat

/-- The default `FONT` of R262, glyphs 0 to 7. PRESUMED (the spec marks the bytes general knowledge): log entry 6. -/
def fontLow : List Byte :=
  [0xF0, 0x90, 0x90, 0x90, 0xF0] ++ [0x20, 0x60, 0x20, 0x20, 0x70] ++
  [0xF0, 0x10, 0xF0, 0x80, 0xF0] ++ [0xF0, 0x10, 0xF0, 0x10, 0xF0] ++
  [0x90, 0x90, 0xF0, 0x10, 0x10] ++ [0xF0, 0x80, 0xF0, 0x10, 0xF0] ++
  [0xF0, 0x80, 0xF0, 0x90, 0xF0] ++ [0xF0, 0x10, 0x20, 0x40, 0x40]

/-- The default `FONT` of R262, glyphs 8 to F. PRESUMED: log entry 6. -/
def fontHigh : List Byte :=
  [0xF0, 0x90, 0xF0, 0x90, 0xF0] ++ [0xF0, 0x90, 0xF0, 0x10, 0xF0] ++
  [0xF0, 0x90, 0xF0, 0x90, 0x90] ++ [0xE0, 0x90, 0xE0, 0x90, 0xE0] ++
  [0xF0, 0x80, 0x80, 0x80, 0xF0] ++ [0xE0, 0x90, 0x90, 0x90, 0xE0] ++
  [0xF0, 0x80, 0xF0, 0x80, 0xF0] ++ [0xF0, 0x80, 0xF0, 0x80, 0x80]

/-- The default `FONT` (R262): 80 bytes, the glyph of digit `d` at `5*d`. PRESUMED: log entry 6. -/
def font : List Byte := fontLow ++ fontHigh

/-- FREE VALUE: the byte the random source answers to draw number `k` (R174, D15). Log entry 2. -/
opaque freeByte : Nat → Byte

/-- FREE VALUE: the sample the key source answers to draw number `k` (R190, D14). Log entry 3. -/
opaque freeKeys : Nat → KeySample

/-- FREE VALUE: the agent that moves at turn number `k` (R233, D20). Log entry 1. -/
opaque freeAgent : Nat → Agent

end Config

end Sys2Proof
end

