-- ==== Sys2Proof/WellFormed.lean ====
section
/-! DEFINITION. Well-formedness of what comes into the machine. An `Instr` needs no check: each operand's type is
exactly its field's width, so every term is encodable (R91, R92). What the spec does bound are the two parameters of
reset (spec/70_reset_and_hazards.md rules R260 to R262), and the form in which an assembler writes the shifts
(spec/30_encoding.md rule R103). -/

namespace Sys2Proof

/-- A ROM image that reset accepts: `L <= 3584` (R261, D21). -/
def romWellFormed (rom : List Byte) : Bool := decide (rom.length ≤ Config.romMax)

/-- A font table that reset accepts: 80 bytes (R4, R262). -/
def fontWellFormed (font : List Byte) : Bool := decide (font.length = Config.fontBytes)

/-- The form an assembler writes: `SHR Vx` and `SHL Vx` assemble with `y = 0` (R103). Any `y` decodes to the same
operation (R92), so no other definition asks for this form. -/
def Instr.asAssembled : Instr → Bool
  | .shr _ y => decide (y = 0)
  | .shl _ y => decide (y = 0)
  | .cls | .ret | .jp _ | .call _ | .seImm _ _ | .sneImm _ _ | .seReg _ _ | .ldImm _ _ | .addImm _ _
  | .ldReg _ _ | .orReg _ _ | .andReg _ _ | .xorReg _ _ | .addReg _ _ | .subReg _ _ | .subnReg _ _
  | .sneReg _ _ | .ldI _ | .jpV0 _ | .rnd _ _ | .drw _ _ _ | .skp _ | .sknp _ | .ldVxDt _ | .ldVxK _
  | .ldDtVx _ | .ldStVx _ | .addI _ | .ldF _ | .ldB _ | .ldMemVx _ | .ldVxMem _ => true

end Sys2Proof
end

