-- ==== Sys2Proof/Decode.lean ====
section
/-! DEFINITION. The decoder and the encoder of the ktchip8 CORE (spec/30_encoding.md). `classify` follows the
decision order of rule R94 with the opcode map of rule R95; `decode` reads the word from bytes, high byte first
(R63, R90); `encode` writes the word of an instruction from the layouts of rule R92. -/

namespace Sys2Proof

/-- The top nibble `op[15:12]` (R91). -/
def topNibble (op : Word) : BitVec 4 := op.extractLsb' 12 4

/-- `x = op[11:8]` (R91). -/
def xField (op : Word) : Reg := (op.extractLsb' 8 4).toFin

/-- `y = op[7:4]` (R91). -/
def yField (op : Word) : Reg := (op.extractLsb' 4 4).toFin

/-- `n = op[3:0]` as a row count 0 to 15 (R91, R93). -/
def nField (op : Word) : Fin 16 := (op.extractLsb' 0 4).toFin

/-- The bottom nibble `op[3:0]` as a sub-opcode (R92). -/
def bottomNibble (op : Word) : BitVec 4 := op.extractLsb' 0 4

/-- `kk = op[7:0]`, also the sub-opcode of format X (R91, R92). -/
def kkField (op : Word) : Byte := op.extractLsb' 0 8

/-- `nnn = op[11:0]` (R91, C8). -/
def nnnField (op : Word) : Addr12 := op.extractLsb' 0 12

/-- Sub-classification of top nibble 8 by the bottom nibble (R94, R95). -/
def classifyAlu (op : Word) : Option Instr :=
  let x := xField op
  let y := yField op
  match bottomNibble op with
  | 0x0#4 => some (.ldReg x y)
  | 0x1#4 => some (.orReg x y)
  | 0x2#4 => some (.andReg x y)
  | 0x3#4 => some (.xorReg x y)
  | 0x4#4 => some (.addReg x y)
  | 0x5#4 => some (.subReg x y)
  | 0x6#4 => some (.shr x y)
  | 0x7#4 => some (.subnReg x y)
  | 0xE#4 => some (.shl x y)
  | _ => none

/-- Sub-classification of top nibble E by the low byte (R94). -/
def classifyKeys (op : Word) : Option Instr :=
  match kkField op with
  | 0x9E#8 => some (.skp (xField op))
  | 0xA1#8 => some (.sknp (xField op))
  | _ => none

/-- Sub-classification of top nibble F by the low byte (R94, R95). -/
def classifyMisc (op : Word) : Option Instr :=
  let x := xField op
  match kkField op with
  | 0x07#8 => some (.ldVxDt x)
  | 0x0A#8 => some (.ldVxK x)
  | 0x15#8 => some (.ldDtVx x)
  | 0x18#8 => some (.ldStVx x)
  | 0x1E#8 => some (.addI x)
  | 0x29#8 => some (.ldF x)
  | 0x33#8 => some (.ldB x)
  | 0x55#8 => some (.ldMemVx x)
  | 0x65#8 => some (.ldVxMem x)
  | _ => none

/-- Classification of a 16-bit word (R94, R101): one of the 34 instructions, or `none` for "unrecognised". -/
def classify (op : Word) : Option Instr :=
  match topNibble op with
  | 0x0#4 => if op = 0x00E0#16 then some .cls else if op = 0x00EE#16 then some .ret else none
  | 0x1#4 => some (.jp (nnnField op))
  | 0x2#4 => some (.call (nnnField op))
  | 0x3#4 => some (.seImm (xField op) (kkField op))
  | 0x4#4 => some (.sneImm (xField op) (kkField op))
  | 0x5#4 => if bottomNibble op = 0x0#4 then some (.seReg (xField op) (yField op)) else none
  | 0x6#4 => some (.ldImm (xField op) (kkField op))
  | 0x7#4 => some (.addImm (xField op) (kkField op))
  | 0x8#4 => classifyAlu op
  | 0x9#4 => if bottomNibble op = 0x0#4 then some (.sneReg (xField op) (yField op)) else none
  | 0xA#4 => some (.ldI (nnnField op))
  | 0xB#4 => some (.jpV0 (nnnField op))
  | 0xC#4 => some (.rnd (xField op) (kkField op))
  | 0xD#4 => some (.drw (xField op) (yField op) (nField op))
  | 0xE#4 => classifyKeys op
  | 0xF#4 => classifyMisc op
  | _ => none

/-- Why `decode` rejects a byte sequence. -/
inductive DecodeReject where
  /-- Fewer than the two bytes every instruction has (R90). -/
  | truncated
  /-- The word is one of the 21582 unrecognised words (R97). -/
  | unrecognised (op : Word)
  deriving DecidableEq, Repr

/-- Two bytes read as a word, the byte at the lower address the high byte (R63). -/
def wordOfBytes (hi lo : Byte) : Word := hi ++ lo

/-- The decoder on bytes: total, the instruction with the bytes that follow it, or a named rejection (R90, R99). -/
def decode : List Byte → Except DecodeReject (Instr × List Byte)
  | hi :: lo :: rest =>
    match classify (wordOfBytes hi lo) with
    | some i => .ok (i, rest)
    | none => .error (.unrecognised (wordOfBytes hi lo))
  | _ => .error .truncated

/-- The two bytes of a word in memory order, high byte first (R63). -/
def bytesOfWord (op : Word) : List Byte := [op.extractLsb' 8 8, op.extractLsb' 0 8]

/-- The instruction the decoder reads from a row of spec/opcode_table.json: the word `w` cut to its `nbits` bits, laid
out as memory holds it, given to `decode`. -/
def decodeTableWord (nbits w : Nat) : Option Instr :=
  match decode (bytesOfWord (BitVec.ofNat 16 (w % 2 ^ nbits))) with
  | .ok (i, _) => some i
  | .error _ => none

/-- A register number as the 4 bits of its field. -/
def regBits (r : Fin 16) : BitVec 4 := BitVec.ofFin r

/-- Format NNN (R92): `[opcode][nnn]`. -/
def formatNNN (t : BitVec 4) (nnn : Addr12) : Word := t ++ nnn

/-- Format XKK, and format X with its 8-bit sub-opcode (R92): `[opcode][x][kk]`. -/
def formatXKK (t : BitVec 4) (x : Reg) (kk : Byte) : Word := t ++ regBits x ++ kk

/-- Format XYN, and format XY with its 4-bit sub-opcode (R92): `[opcode][x][y][n]`. -/
def formatXYN (t : BitVec 4) (x y : Reg) (n : BitVec 4) : Word := t ++ regBits x ++ regBits y ++ n

/-- The encoder: the word of an instruction, from the layouts and opcode values of R92 and R95. -/
def encode : Instr → Word
  | .cls => 0x00E0#16
  | .ret => 0x00EE#16
  | .jp nnn => formatNNN 0x1#4 nnn
  | .call nnn => formatNNN 0x2#4 nnn
  | .seImm x kk => formatXKK 0x3#4 x kk
  | .sneImm x kk => formatXKK 0x4#4 x kk
  | .seReg x y => formatXYN 0x5#4 x y 0x0#4
  | .ldImm x kk => formatXKK 0x6#4 x kk
  | .addImm x kk => formatXKK 0x7#4 x kk
  | .ldReg x y => formatXYN 0x8#4 x y 0x0#4
  | .orReg x y => formatXYN 0x8#4 x y 0x1#4
  | .andReg x y => formatXYN 0x8#4 x y 0x2#4
  | .xorReg x y => formatXYN 0x8#4 x y 0x3#4
  | .addReg x y => formatXYN 0x8#4 x y 0x4#4
  | .subReg x y => formatXYN 0x8#4 x y 0x5#4
  | .shr x y => formatXYN 0x8#4 x y 0x6#4
  | .subnReg x y => formatXYN 0x8#4 x y 0x7#4
  | .shl x y => formatXYN 0x8#4 x y 0xE#4
  | .sneReg x y => formatXYN 0x9#4 x y 0x0#4
  | .ldI nnn => formatNNN 0xA#4 nnn
  | .jpV0 nnn => formatNNN 0xB#4 nnn
  | .rnd x kk => formatXKK 0xC#4 x kk
  | .drw x y n => formatXYN 0xD#4 x y (regBits n)
  | .skp x => formatXKK 0xE#4 x 0x9E#8
  | .sknp x => formatXKK 0xE#4 x 0xA1#8
  | .ldVxDt x => formatXKK 0xF#4 x 0x07#8
  | .ldVxK x => formatXKK 0xF#4 x 0x0A#8
  | .ldDtVx x => formatXKK 0xF#4 x 0x15#8
  | .ldStVx x => formatXKK 0xF#4 x 0x18#8
  | .addI x => formatXKK 0xF#4 x 0x1E#8
  | .ldF x => formatXKK 0xF#4 x 0x29#8
  | .ldB x => formatXKK 0xF#4 x 0x33#8
  | .ldMemVx x => formatXKK 0xF#4 x 0x55#8
  | .ldVxMem x => formatXKK 0xF#4 x 0x65#8

/-- A row of spec/opcode_table.json: a word belongs to it when its bits under `mask` are `pattern`. -/
structure OpcodeRow where
  mask : Word
  pattern : Word
  deriving DecidableEq, Repr

/-- The row of spec/opcode_table.json an instruction stands for ("match" and "mask" of the table). -/
def opcodeRow : Instr → OpcodeRow
  | .cls => ⟨0xFFFF#16, 0x00E0#16⟩
  | .ret => ⟨0xFFFF#16, 0x00EE#16⟩
  | .jp _ => ⟨0xF000#16, 0x1000#16⟩
  | .call _ => ⟨0xF000#16, 0x2000#16⟩
  | .seImm _ _ => ⟨0xF000#16, 0x3000#16⟩
  | .sneImm _ _ => ⟨0xF000#16, 0x4000#16⟩
  | .seReg _ _ => ⟨0xF00F#16, 0x5000#16⟩
  | .ldImm _ _ => ⟨0xF000#16, 0x6000#16⟩
  | .addImm _ _ => ⟨0xF000#16, 0x7000#16⟩
  | .ldReg _ _ => ⟨0xF00F#16, 0x8000#16⟩
  | .orReg _ _ => ⟨0xF00F#16, 0x8001#16⟩
  | .andReg _ _ => ⟨0xF00F#16, 0x8002#16⟩
  | .xorReg _ _ => ⟨0xF00F#16, 0x8003#16⟩
  | .addReg _ _ => ⟨0xF00F#16, 0x8004#16⟩
  | .subReg _ _ => ⟨0xF00F#16, 0x8005#16⟩
  | .shr _ _ => ⟨0xF00F#16, 0x8006#16⟩
  | .subnReg _ _ => ⟨0xF00F#16, 0x8007#16⟩
  | .shl _ _ => ⟨0xF00F#16, 0x800E#16⟩
  | .sneReg _ _ => ⟨0xF00F#16, 0x9000#16⟩
  | .ldI _ => ⟨0xF000#16, 0xA000#16⟩
  | .jpV0 _ => ⟨0xF000#16, 0xB000#16⟩
  | .rnd _ _ => ⟨0xF000#16, 0xC000#16⟩
  | .drw _ _ _ => ⟨0xF000#16, 0xD000#16⟩
  | .skp _ => ⟨0xF0FF#16, 0xE09E#16⟩
  | .sknp _ => ⟨0xF0FF#16, 0xE0A1#16⟩
  | .ldVxDt _ => ⟨0xF0FF#16, 0xF007#16⟩
  | .ldVxK _ => ⟨0xF0FF#16, 0xF00A#16⟩
  | .ldDtVx _ => ⟨0xF0FF#16, 0xF015#16⟩
  | .ldStVx _ => ⟨0xF0FF#16, 0xF018#16⟩
  | .addI _ => ⟨0xF0FF#16, 0xF01E#16⟩
  | .ldF _ => ⟨0xF0FF#16, 0xF029#16⟩
  | .ldB _ => ⟨0xF0FF#16, 0xF033#16⟩
  | .ldMemVx _ => ⟨0xF0FF#16, 0xF055#16⟩
  | .ldVxMem _ => ⟨0xF0FF#16, 0xF065#16⟩

end Sys2Proof
end

