-- ==== Sys2Proof/Machine/State.lean ====
section
/-! DEFINITION. The state of the ktchip8 CORE: the eleven items of spec/10_state.md rule R39, and beside them the
input ports of rule R37 as the model's own plain data. The reasons for which a step gives no next state. -/

namespace Sys2Proof.Machine

/-- `STATUS` (R33). -/
inductive Status where
  | running
  | halted
  | fault
  deriving DecidableEq, Repr

/-- The four fatal conditions (R220). -/
inductive FatalKind where
  | unrecognizedOpcode
  | stackOverflow
  | stackUnderflow
  | memRange
  deriving DecidableEq, Repr

/-- `ERR` (R34): the failing step's fetch address, its word (absent when the fetch itself failed), and the lowest
offending address of a `MemRange` (absent otherwise). -/
structure ErrorRecord where
  kind   : FatalKind
  pc     : Word
  opcode : Option Word
  addr   : Option Nat
  deriving DecidableEq, Repr

/-- `MEM` (R31) as the list of the cells that differ from the reset image, in one canonical form: addresses strictly
rising, no entry equal to what an unlisted address reads as (log entry 8). -/
abbrev Memory := List Host.Cell

/-- `FB` (R32): 32 rows of 64 one-bit pixels. -/
abbrev Framebuffer := Vector (Vector Bool 64) 32

/-- THE MODEL'S OWN, not the spec's state: the ports `step`/`tick`, `keys` and `rand` of R37 as plain data. Each list
holds answers the outside has already fixed, the next one at the front. Where a list is empty the answer is the free
value of Config at the port's own counter of answers taken, so that a tick moves neither the keys nor the random bytes
(log entries 1 to 4). -/
structure Inputs where
  schedule  : List Agent
  keys      : List KeySample
  rand      : List Byte
  turns     : Nat
  keyDraws  : Nat
  randDraws : Nat
  deriving DecidableEq, Repr

/-- The state (R39). -/
structure State where
  /-- `V[0]` to `V[15]` (R20); `V[15]` is `VF` (R21). -/
  v      : Vector Byte 16
  /-- `I` (R24). -/
  i      : Word
  /-- `pc` (R25). -/
  pc     : Word
  /-- `SP` (R27). -/
  sp     : Fin 16
  /-- `STACK[0]` to `STACK[15]` (R28). -/
  stack  : Vector Word 16
  /-- `DT` (R29). -/
  dt     : Byte
  /-- `ST` (R30). -/
  st     : Byte
  /-- `MEM` (R31). -/
  mem    : Memory
  /-- `FB` (R32). -/
  fb     : Framebuffer
  /-- `STATUS` (R33). -/
  status : Status
  /-- `ERR` (R34). -/
  err    : Option ErrorRecord
  /-- The model's own: the input ports (R37). -/
  inputs : Inputs
  deriving DecidableEq, Repr

/-- Why `step` gives no next state. No instruction's meaning raises one: the four fatal conditions of the spec are
next states with `STATUS = FAULT` (R227). -/
inductive Fault where
  /-- Raised by `step` alone, when `STATUS = HALTED`: neither agent has a step (R104, R229, R235). Safe: the spec gives
  no transition there (log entry 7). -/
  | runHalted
  /-- Raised by `step` alone, when `STATUS = FAULT`: neither agent has a step (R104, R229, R235). Safe: the spec gives
  no transition there (log entry 7). -/
  | runFaulted
  deriving DecidableEq, Repr

/-- Why an instruction has no meaning. -/
inductive Refusal where
  /-- Raised by an arm of `exec` whose instruction has no meaning yet; no arm of this model raises it. Safe. -/
  | notModelled (mnemonic : String)
  deriving DecidableEq, Repr

/-- The outcome of a step of this machine. -/
abbrev Result := Host.Outcome State Fault Refusal

/-- The ports with nothing fixed in advance (log entry 4). -/
def Inputs.fresh : Inputs := { schedule := [], keys := [], rand := [], turns := 0, keyDraws := 0, randDraws := 0 }

/-- The machine right after `Reset(ROM, FONT)` with an empty ROM and the default FONT (R39, R260): every register 0,
`pc = 0x200`, memory with nothing listed, `STATUS = RUNNING`, `ERR` absent (log entries 4, 5, 6). -/
def State.reset : State where
  v      := Vector.replicate 16 0
  i      := 0
  pc     := 0x200
  sp     := 0
  stack  := Vector.replicate 16 0
  dt     := 0
  st     := 0
  mem    := []
  fb     := Vector.replicate 32 (Vector.replicate 64 false)
  status := .running
  err    := none
  inputs := Inputs.fresh

end Sys2Proof.Machine
end

