-- ==== Sys2Proof/Machine/Ops.lean ====
section
/-! DEFINITION. The named operations over memory, registers, the framebuffer and the input ports; fetching; entering a
fatal condition and the halt (the machine has no exception return, R229); the timer agent's tick; reset. -/

namespace Sys2Proof.Machine

/-! ### Memory (spec/20_memory.md) -/

/-- What an address that is not listed reads as: the reset image with an empty ROM, that is the default FONT at 0 to
79 and 0 elsewhere (R39, R61). -/
def background (a : Nat) : Byte := Config.font.getD a 0

/-- The byte at address `a`. -/
def Memory.read : Memory → Nat → Byte
  | [], a => background a
  | (b, x) :: m, a => if a = b then x else Memory.read m a

/-- `x` put in front of `m` as the cell at `a`, unless that is what the unlisted address reads as. -/
def Memory.consCell (a : Nat) (x : Byte) (m : Memory) : Memory :=
  if x = background a then m else (a, x) :: m

/-- `MEM[a] <- x`, keeping the canonical form. -/
def Memory.write : Memory → Nat → Byte → Memory
  | [], a, x => Memory.consCell a x []
  | (b, y) :: m, a, x =>
    if a < b then Memory.consCell a x ((b, y) :: m)
    else if a = b then Memory.consCell a x m
    else (b, y) :: Memory.write m a x

/-- The canonical form: addresses strictly rising and inside `MEM`, no entry equal to the reset image. -/
abbrev Memory.wf (m : Memory) : Prop :=
  m.Pairwise (fun p q => p.1 < q.1) ∧ ∀ p ∈ m, p.1 < Config.memSize ∧ p.2 ≠ background p.1

/-- Bytes stored at ascending addresses from `base` (R64). -/
def Memory.writeBytes : Memory → Nat → List Byte → Memory
  | m, _, [] => m
  | m, base, x :: xs => Memory.writeBytes (m.write base x) (base + 1) xs

/-- `count` bytes read at ascending addresses from `base` (R64). -/
def Memory.readBytes (m : Memory) (base count : Nat) : List Byte :=
  (List.range count).map (fun k => m.read (base + k))

/-- The range check of `count` accesses at `base, base + 1, …` (R66): the lowest address above 4095, if there is one.
The sum is unbounded (D24). -/
def rangeViolation (base count : Nat) : Option Nat :=
  ((List.range count).map (base + ·)).find? (fun a => decide (4095 < a))

/-! ### Framebuffer (R32) -/

/-- `FB[row][col]`. -/
def Framebuffer.pixel (fb : Framebuffer) (row : Fin 32) (col : Fin 64) : Bool := fb[row.val][col.val]

/-- `FB[row][col] <- FB[row][col] xor 1`. -/
def Framebuffer.toggle (fb : Framebuffer) (row : Fin 32) (col : Fin 64) : Framebuffer :=
  fb.set row.val (fb[row.val].set col.val (!fb[row.val][col.val]))

/-- Every pixel 0. -/
def Framebuffer.blank : Framebuffer := Vector.replicate 32 (Vector.replicate 64 false)

/-! ### Registers and the updates of one field -/

/-- `VF` is `V[15]` (R21). -/
def vf : Reg := 15

/-- `V[r]` (R20). -/
def State.reg (s : State) (r : Reg) : Byte := s.v[r.val]

/-- `V[r] <- x` (R20). -/
def State.setReg (s : State) (r : Reg) (x : Byte) : State := { s with v := s.v.set r.val x }

/-- `STACK[k]` (R28). -/
def State.slot (s : State) (k : Fin 16) : Word := s.stack[k.val]

/-- `STACK[k] <- w` (R28). -/
def State.setSlot (s : State) (k : Fin 16) (w : Word) : State := { s with stack := s.stack.set k.val w }

/-- `I <- w` (R24). -/
def State.setI (s : State) (w : Word) : State := { s with i := w }

/-- `pc <- w` (R25). -/
def State.setPc (s : State) (w : Word) : State := { s with pc := w }

/-- `SP <- k` (R27). -/
def State.setSp (s : State) (k : Fin 16) : State := { s with sp := k }

/-- `DT <- x` (R29). -/
def State.setDt (s : State) (x : Byte) : State := { s with dt := x }

/-- `ST <- x` (R30). -/
def State.setSt (s : State) (x : Byte) : State := { s with st := x }

/-- `MEM` replaced. -/
def State.setMem (s : State) (m : Memory) : State := { s with mem := m }

/-- `FB` replaced. -/
def State.setFb (s : State) (fb : Framebuffer) : State := { s with fb := fb }

/-- `STATUS <- x` (R33). -/
def State.setStatus (s : State) (x : Status) : State := { s with status := x }

/-- `ERR <- e` (R34). -/
def State.setErr (s : State) (e : Option ErrorRecord) : State := { s with err := e }

/-- The input ports replaced (the model's own field). -/
def State.setInputs (s : State) (inp : Inputs) : State := { s with inputs := inp }

/-- One byte of memory. -/
def State.readByte (s : State) (a : Nat) : Byte := s.mem.read a

/-- One pixel. -/
def State.pixel (s : State) (row : Fin 32) (col : Fin 64) : Bool := s.fb.pixel row col

/-! ### Leaving an instruction (R26, R104, R105) -/

/-- Stage 5 of the step: `pc <- a + 2`. -/
def State.advance (s : State) : State := s.setPc (s.pc + 2)

/-- A skip: `pc <- a + 4` when the condition holds, else `pc <- a + 2`. -/
def State.skipIf (s : State) (c : Bool) : State := s.setPc (if c then s.pc + 4 else s.pc + 2)

/-- `Halt()` (R130, R225): `STATUS <- HALTED`, nothing else. -/
def State.halt (s : State) : State := s.setStatus .halted

/-- `raise <Kind>` (R227, R228): `STATUS <- FAULT`, `ERR` filled with the fetch address `pc`, and nothing else. There is
no vector, no saved state, no mode change; and there is no return (R229). -/
def State.raise (s : State) (kind : FatalKind) (opcode : Option Word) (addr : Option Nat) : State :=
  (s.setStatus .fault).setErr (some { kind := kind, pc := s.pc, opcode := opcode, addr := addr })

/-- The numeric code of a fatal condition in the table of R220; the numbering is the spec's decision D19 (log entry 10). -/
def fatalCode : FatalKind → Nat
  | .unrecognizedOpcode => 1
  | .stackOverflow => 2
  | .stackUnderflow => 3
  | .memRange => 4

/-- `STATUS = RUNNING` is what lets an agent step (R104, R235): the reason why there is no step, if there is none. -/
def noStepReason (s : State) : Option Fault :=
  match s.status with
  | .running => none
  | .halted => some .runHalted
  | .fault => some .runFaulted

/-- The four memory instructions check every address before the first write (R66, R228): `k` is the state after the
accesses, and the instruction's own word goes into `ERR.opcode`. -/
def State.withRange (s : State) (ins : Instr) (count : Nat) (k : State) : State :=
  match rangeViolation s.i.toNat count with
  | some addr => s.raise .memRange (some (encode ins)) (some addr)
  | none => k

/-! ### Fetch (R63, R67, R104) -/

/-- `Fetch(a)`: the big-endian word at `pc`, or `none` when `pc > 4094`. An odd address is fetched from like an even
one (R65, D5). -/
def State.fetch (s : State) : Option Word :=
  if 4094 < s.pc.toNat then none
  else some (wordOfBytes (s.readByte s.pc.toNat) (s.readByte (s.pc.toNat + 1)))

/-! ### The input ports (R37): the next answer, and the ports after it is taken -/

/-- The agent whose transition comes next (R233). -/
def State.nextAgent (s : State) : Agent :=
  match s.inputs.schedule with
  | a :: _ => a
  | [] => Config.freeAgent s.inputs.turns

/-- The ports after the next agent is chosen. -/
def State.afterAgent (s : State) : State :=
  s.setInputs { s.inputs with schedule := s.inputs.schedule.tail, turns := s.inputs.turns + 1 }

/-- `RandByte()` (R174). -/
def State.nextRand (s : State) : Byte :=
  match s.inputs.rand with
  | r :: _ => r
  | [] => Config.freeByte s.inputs.randDraws

/-- The ports after a random byte is drawn. -/
def State.afterRand (s : State) : State :=
  s.setInputs { s.inputs with rand := s.inputs.rand.tail, randDraws := s.inputs.randDraws + 1 }

/-- The sample of the key source that the asking instruction sees (R190). -/
def State.nextKeys (s : State) : KeySample :=
  match s.inputs.keys with
  | k :: _ => k
  | [] => Config.freeKeys s.inputs.keyDraws

/-- The ports after the key source is sampled. -/
def State.afterKeys (s : State) : State :=
  s.setInputs { s.inputs with keys := s.inputs.keys.tail, keyDraws := s.inputs.keyDraws + 1 }

/-- `KeyDown(k)` in one sample, for an 8-bit `k`; false for `k > 15` (R190, D13). -/
def keyDown (sample : KeySample) (k : Byte) : Bool := sample.any (fun key => decide (key.val = k.toNat))

/-- `AnyKey()` in one sample (R190, D14). -/
def anyKey (sample : KeySample) : Option Key := sample.head?

/-! ### The timer agent (R232) -/

/-- A saturating-at-zero countdown (R29, R30). -/
def countDown (t : Byte) : Byte := if 0 < t.toNat then t - 1 else t

/-- `Tick`: both timers in one transition, nothing else. -/
def State.tick (s : State) : State := (s.setDt (countDown s.dt)).setSt (countDown s.st)

/-! ### Reset (spec/70_reset_and_hazards.md rules R260, R261, R272) -/

/-- The memory image of `Reset(ROM, FONT)`: zero, then the 80 bytes of FONT at 0, then ROM at 0x200. -/
def resetMemory (rom font : List Byte) : Memory :=
  (Memory.writeBytes [] Config.fontBase font).writeBytes Config.progBase rom

/-- The `reset` port: `Reset(ROM, FONT)`, refused (`none`) for an image longer than 3584 bytes or a table that is not 80
bytes (R261, R262, D21). It may be applied in any state and keeps none of it (R260, R272); what the outside goes on to
answer is not the unit's state and stays (log entry 21). -/
def State.applyReset (s : State) (rom font : List Byte) : Option State :=
  if romWellFormed rom && fontWellFormed font then
    some ((State.reset.setMem (resetMemory rom font)).setInputs s.inputs)
  else none

end Sys2Proof.Machine
end

