-- ==== Sys2Proof/Machine/Operands.lean ====
section
/-! DEFINITION. Operand forms and the values computed from operands, each on exact integers first and narrowed to its
register's width at the end (spec/00_scope.md rule R6, spec/41_alu.md rule R150). -/

namespace Sys2Proof.Machine

/-- `(a + b) mod 256` (R150, R155, R171). -/
def add8 (a b : Byte) : Byte := BitVec.ofNat 8 (a.toNat + b.toNat)

/-- `(m - s) mod 256` (R150, R156, R158). -/
def sub8 (m s : Byte) : Byte := BitVec.ofInt 8 ((m.toNat : Int) - (s.toNat : Int))

/-- `v >> 1`, bit 7 becomes 0 (R157). -/
def shiftRight8 (v : Byte) : Byte := v >>> 1

/-- `(v << 1) mod 256`, bit 0 becomes 0 (R159). -/
def shiftLeft8 (v : Byte) : Byte := v <<< 1

/-- `(I + V[x]) mod 65536` (R173). -/
def addIndex (i : Word) (b : Byte) : Word := BitVec.ofNat 16 (i.toNat + b.toNat)

/-- `nnn + V[0]`, 0 to 4350 (R133). -/
def jumpTarget (nnn : Addr12) (v0 : Byte) : Word := zextAddr nnn + zextByte v0

/-- The address of the glyph of the low 4 bits of `v`: `5 * d` (R210, D11). -/
def glyphAddress (v : Byte) : Word := BitVec.ofNat 16 (Config.fontBase + Config.glyphBytes * (v.toNat % 16))

/-- The decimal digits of `v`, hundreds first (R211). -/
def decimalDigits (v : Byte) : List Byte :=
  [BitVec.ofNat 8 (v.toNat / 100), BitVec.ofNat 8 (v.toNat / 10 % 10), BitVec.ofNat 8 (v.toNat % 10)]

/-- The values of `V[0]` to `V[x]`, in that order (R212). -/
def State.regsUpTo (s : State) (x : Reg) : List Byte := s.v.toList.take (x.val + 1)

/-- `V` with the bytes of a list loaded into registers `k`, `k + 1`, … (R213). -/
def loadRegsFrom (v : Vector Byte 16) : Nat → List Byte → Vector Byte 16
  | _, [] => v
  | k, b :: bs => loadRegsFrom (v.setIfInBounds k b) (k + 1) bs

/-- Sprite column `c` of a row byte is bit `7 - c` (R183, D16). -/
def spriteBit (b : Byte) (c : Nat) : Bool := b.getLsbD (7 - c)

end Sys2Proof.Machine
end

