-- ==== Sys2Proof/Machine/Flags.lean ====
section
/-! DEFINITION. The values of the flag register `VF` (spec/10_state.md rule R21; spec/41_alu.md rule R150 laws 4 and
5). The machine has no other flag. -/

namespace Sys2Proof.Machine

/-- A flag value: exactly 0 or 1 (R150 law 5). -/
def flagByte (b : Bool) : Byte := if b then 1 else 0

/-- Carry out of the 8-bit sum (R155). -/
def carryFlag (a b : Byte) : Byte := flagByte (decide (255 < a.toNat + b.toNat))

/-- No borrow: minuend at least the subtrahend (R156, R158). -/
def noBorrowFlag (m s : Byte) : Byte := flagByte (decide (s.toNat ≤ m.toNat))

/-- The bit a right shift drops (R157). -/
def lowBitFlag (v : Byte) : Byte := flagByte (v.getLsbD 0)

/-- The bit a left shift drops (R159). -/
def highBitFlag (v : Byte) : Byte := flagByte (v.getLsbD 7)

/-- The collision flag of a draw (R181). -/
def collisionFlag (hit : Bool) : Byte := flagByte hit

/-- The common end of the five flag-writing instructions: result first, flag last, then `pc <- a + 2` (R150 law 4,
D7). -/
def State.writeWithFlag (s : State) (x : Reg) (result flag : Byte) : State :=
  ((s.setReg x result).setReg vf flag).advance

end Sys2Proof.Machine
end

