-- ==== Sys2Proof/Machine/Alu.lean ====
section
/-! DEFINITION. The ALU group, opcode family 8 (spec/41_alu.md). Operands are read before anything is written (R150
law 4). -/

namespace Sys2Proof.Machine

/-- `LD Vx, Vy` (R151). -/
def execLdReg (x y : Reg) (s : State) : Result := .next (s.setReg x (s.reg y)).advance

/-- `OR Vx, Vy`; `VF` is left alone (R152, R150 law 6). -/
def execOrReg (x y : Reg) (s : State) : Result := .next (s.setReg x (s.reg x ||| s.reg y)).advance

/-- `AND Vx, Vy`; `VF` is left alone (R153, R150 law 6). -/
def execAndReg (x y : Reg) (s : State) : Result := .next (s.setReg x (s.reg x &&& s.reg y)).advance

/-- `XOR Vx, Vy`; `VF` is left alone (R154, R150 law 6). -/
def execXorReg (x y : Reg) (s : State) : Result := .next (s.setReg x (s.reg x ^^^ s.reg y)).advance

/-- `ADD Vx, Vy` (R155). -/
def execAddReg (x y : Reg) (s : State) : Result :=
  .next (s.writeWithFlag x (add8 (s.reg x) (s.reg y)) (carryFlag (s.reg x) (s.reg y)))

/-- `SUB Vx, Vy`: minuend `V[x]` (R156). -/
def execSubReg (x y : Reg) (s : State) : Result :=
  .next (s.writeWithFlag x (sub8 (s.reg x) (s.reg y)) (noBorrowFlag (s.reg x) (s.reg y)))

/-- `SHR Vx`: `V[x]` shifted in place, `y` ignored (R157, D8). -/
def execShr (x _y : Reg) (s : State) : Result :=
  .next (s.writeWithFlag x (shiftRight8 (s.reg x)) (lowBitFlag (s.reg x)))

/-- `SUBN Vx, Vy`: minuend `V[y]` (R158). -/
def execSubnReg (x y : Reg) (s : State) : Result :=
  .next (s.writeWithFlag x (sub8 (s.reg y) (s.reg x)) (noBorrowFlag (s.reg y) (s.reg x)))

/-- `SHL Vx`: `V[x]` shifted in place, `y` ignored (R159, D8). -/
def execShl (x _y : Reg) (s : State) : Result :=
  .next (s.writeWithFlag x (shiftLeft8 (s.reg x)) (highBitFlag (s.reg x)))

end Sys2Proof.Machine
end

