-- ==== Sys2Proof/Machine/ControlFlow.lean ====
section
/-! DEFINITION. Control flow (spec/40_control_flow.md). During an instruction `pc` is the fetch address `a` (R25). -/

namespace Sys2Proof.Machine

/-- `JP nnn`: jump, or the halt signal when the target is the instruction's own address (R130). -/
def execJp (nnn : Addr12) (s : State) : Result :=
  if zextAddr nnn = s.pc then .next s.halt else .next (s.setPc (zextAddr nnn))

/-- `CALL nnn`: `SP` is incremented before the push of `a + 2` (R131). -/
def execCall (nnn : Addr12) (s : State) : Result :=
  if s.sp = 15 then .next (s.raise .stackOverflow (some (encode (.call nnn))) none)
  else .next (((s.setSp (s.sp + 1)).setSlot (s.sp + 1) (s.pc + 2)).setPc (zextAddr nnn))

/-- `RET`: `SP` is decremented after the pop (R132). -/
def execRet (s : State) : Result :=
  if s.sp = 0 then .next (s.raise .stackUnderflow (some (encode .ret)) none)
  else .next ((s.setPc (s.slot s.sp)).setSp (s.sp - 1))

/-- `JP V0, nnn` (R133); never a halt (D17). -/
def execJpV0 (nnn : Addr12) (s : State) : Result := .next (s.setPc (jumpTarget nnn (s.reg 0)))

/-- `SE Vx, kk` (R134). -/
def execSeImm (x : Reg) (kk : Byte) (s : State) : Result := .next (s.skipIf (decide (s.reg x = kk)))

/-- `SNE Vx, kk` (R135). -/
def execSneImm (x : Reg) (kk : Byte) (s : State) : Result := .next (s.skipIf (decide (s.reg x ≠ kk)))

/-- `SE Vx, Vy` (R136). -/
def execSeReg (x y : Reg) (s : State) : Result := .next (s.skipIf (decide (s.reg x = s.reg y)))

/-- `SNE Vx, Vy` (R137). -/
def execSneReg (x y : Reg) (s : State) : Result := .next (s.skipIf (decide (s.reg x ≠ s.reg y)))

end Sys2Proof.Machine
end

