-- ==== Sys2Proof/Machine/Display.lean ====
section
/-! DEFINITION. Display (spec/43_display.md): clear screen, and the XOR-sprite blitter with its collision detector. -/

namespace Sys2Proof.Machine

/-- The blitter's working state: the framebuffer and whether a set pixel was met (R181, `hit`). -/
abbrev Blit := Framebuffer × Bool

/-- One sprite pixel: a 1 bit toggles its screen pixel and reports a collision when that pixel was set (R181, R183). -/
def blitPixel (row : Fin 32) (col : Fin 64) (bit : Bool) (b : Blit) : Blit :=
  if bit then (b.1.toggle row col, b.2 || b.1.pixel row col) else b

/-- One sprite row of 8 columns from `x0`, each column modulo 64 (R181). -/
def blitRow (x0 : Nat) (row : Fin 32) (byte : Byte) (b : Blit) : Blit :=
  (List.range 8).foldl (fun acc c => blitPixel row (Fin.ofNat 64 (x0 + c)) (spriteBit byte c) acc) b

/-- The sprite's rows downward from `y0`, each row modulo 32 (R181). -/
def blitRows (x0 : Nat) : Nat → List Byte → Blit → Blit
  | _, [], b => b
  | y0, byte :: bytes, b => blitRows x0 (y0 + 1) bytes (blitRow x0 (Fin.ofNat 32 y0) byte b)

/-- `CLS` (R180). -/
def execCls (s : State) : Result := .next (s.setFb Framebuffer.blank).advance

/-- The blit of `DRW` on state `s`: both coordinates read first and reduced, `n` rows read from `I` (R181). -/
def State.drawn (s : State) (x y : Reg) (n : Fin 16) : Blit :=
  blitRows ((s.reg x).toNat % Config.fbWidth) ((s.reg y).toNat % Config.fbHeight)
    (s.mem.readBytes s.i.toNat n.val) (s.fb, false)

/-- `DRW Vx, Vy, n`: all row addresses are checked before any pixel or `VF` is written (R181, R228). -/
def execDrw (x y : Reg) (n : Fin 16) (s : State) : Result :=
  .next (s.withRange (.drw x y n) n.val
    (((s.setFb (s.drawn x y n).1).setReg vf (collisionFlag (s.drawn x y n).2)).advance))

end Sys2Proof.Machine
end

