-- ==== Sys2Proof/Machine/Immediate.lean ====
section
/-! DEFINITION. Immediate arithmetic, index register and random (spec/42_immediate_index_random.md). None of these
writes `VF` implicitly. -/

namespace Sys2Proof.Machine

/-- `LD Vx, kk` (R170). -/
def execLdImm (x : Reg) (kk : Byte) (s : State) : Result := .next (s.setReg x kk).advance

/-- `ADD Vx, kk`: the carry is dropped (R171, D9). -/
def execAddImm (x : Reg) (kk : Byte) (s : State) : Result := .next (s.setReg x (add8 (s.reg x) kk)).advance

/-- `LD I, nnn` (R172). -/
def execLdI (nnn : Addr12) (s : State) : Result := .next (s.setI (zextAddr nnn)).advance

/-- `ADD I, Vx`, modulo 65536 (R173, C2). -/
def execAddI (x : Reg) (s : State) : Result := .next (s.setI (addIndex s.i (s.reg x))).advance

/-- `RND Vx, kk`: one draw of the random source, under the mask (R174). -/
def execRnd (x : Reg) (kk : Byte) (s : State) : Result := .next (s.afterRand.setReg x (s.nextRand &&& kk)).advance

end Sys2Proof.Machine
end

