-- ==== Sys2Proof/Machine/Input.lean ====
section
/-! DEFINITION. Input (spec/44_input.md). Each execution takes one sample of the key source. -/

namespace Sys2Proof.Machine

/-- `SKP Vx` (R191). -/
def execSkp (x : Reg) (s : State) : Result := .next (s.afterKeys.skipIf (keyDown s.nextKeys (s.reg x)))

/-- `SKNP Vx` (R192). -/
def execSknp (x : Reg) (s : State) : Result := .next (s.afterKeys.skipIf (!keyDown s.nextKeys (s.reg x)))

/-- `LD Vx, K`: with no key down the step completes with `pc` still at `a`, and is repeated (R193, C5, D12). -/
def execLdVxK (x : Reg) (s : State) : Result :=
  .next (match anyKey s.nextKeys with
    | some k => (s.afterKeys.setReg x (BitVec.ofNat 8 k.val)).advance
    | none => s.afterKeys)

end Sys2Proof.Machine
end

