-- ==== Sys2Proof/Machine/MemTransfer.lean ====
section
/-! DEFINITION. Memory transfer (spec/46_memory_transfer.md). `I` is left unchanged by the three access instructions
(D10); each checks all its addresses before it writes anything (R228). -/

namespace Sys2Proof.Machine

/-- `LD F, Vx` (R210). -/
def execLdF (x : Reg) (s : State) : Result := .next (s.setI (glyphAddress (s.reg x))).advance

/-- `LD B, Vx` (R211). -/
def execLdB (x : Reg) (s : State) : Result :=
  .next (s.withRange (.ldB x) 3 (s.setMem (s.mem.writeBytes s.i.toNat (decimalDigits (s.reg x)))).advance)

/-- `LD [I], Vx` (R212). -/
def execLdMemVx (x : Reg) (s : State) : Result :=
  .next (s.withRange (.ldMemVx x) (x.val + 1) (s.setMem (s.mem.writeBytes s.i.toNat (s.regsUpTo x))).advance)

/-- `LD Vx, [I]` (R213). -/
def execLdVxMem (x : Reg) (s : State) : Result :=
  .next (s.withRange (.ldVxMem x) (x.val + 1)
    ({ s with v := loadRegsFrom s.v 0 (s.mem.readBytes s.i.toNat (x.val + 1)) } : State).advance)

end Sys2Proof.Machine
end

