-- ==== Sys2Proof/Machine/Timers.lean ====
section
/-! DEFINITION. Timer transfer (spec/45_timer_transfer.md). The tick is `State.tick` of Ops. -/

namespace Sys2Proof.Machine

/-- `LD Vx, DT` (R200). -/
def execLdVxDt (x : Reg) (s : State) : Result := .next (s.setReg x s.dt).advance

/-- `LD DT, Vx` (R201). -/
def execLdDtVx (x : Reg) (s : State) : Result := .next (s.setDt (s.reg x)).advance

/-- `LD ST, Vx` (R202). -/
def execLdStVx (x : Reg) (s : State) : Result := .next (s.setSt (s.reg x)).advance

end Sys2Proof.Machine
end

