-- ==== Sys2Proof/Machine/Step.lean ====
section
/-! DEFINITION. One atomic transition of the machine: an instruction step (spec/30_encoding.md rule R104) or a tick
(spec/60_exceptions.md rule R232), in the order the schedule gives (R233); and placing the next instruction. -/

namespace Sys2Proof.Machine

/-- `Step` (R104): fetch, classify, execute. A fetch out of range raises `MemRange` with `ERR.opcode` absent and the
address `pc`; an unrecognised word raises `UnrecognizedOpcode` (R220, R221, R224). -/
def instructionStep (s : State) : Host.Outcome State Fault Refusal :=
  match s.fetch with
  | none => .next (s.raise .memRange none (some s.pc.toNat))
  | some op =>
    match classify op with
    | none => .next (s.raise .unrecognizedOpcode (some op) none)
    | some i => exec i s

/-- One transition (R233): of the agent whose turn it is, and only while `STATUS = RUNNING` (R104, R235). -/
def step (s : State) : Host.Outcome State Fault Refusal :=
  match noStepReason s with
  | some r => .fault r
  | none =>
    match s.nextAgent with
    | .timer => .next s.afterAgent.tick
    | .instruction => instructionStep s.afterAgent

/-- Where `withFetchWord` puts its word: at `pc`, or at 0x200 when no word can be fetched at `pc`. -/
def State.fetchPlace (s : State) : Word := if 4094 < s.pc.toNat then 0x200 else s.pc

/-- `s` with the instruction word `w` (its low `nbits` bits, of at most 16) where the next step fetches, the next turn
given to the instruction agent, and the unit running: what stands for the outside's placing a program (log entry 5). -/
def State.withFetchWord (s : State) (nbits w : Nat) : State :=
  { s with
    pc     := s.fetchPlace
    mem    := s.mem.writeBytes s.fetchPlace.toNat (bytesOfWord (BitVec.ofNat 16 (w % 2 ^ nbits)))
    status := .running
    err    := none
    inputs := { s.inputs with schedule := .instruction :: s.inputs.schedule } }

end Sys2Proof.Machine
end

