-- ==== Sys2Proof/Machine/Run.lean ====
section
/-! DEFINITION. Executions (spec/60_exceptions.md rules R233 to R235): the sequence of states under a schedule that the
outside chooses, weak fairness of a schedule, and the sequence that `step` itself makes. -/

namespace Sys2Proof.Machine

/-- Which agent is enabled at each moment: the `step` and `tick` enables of R37 as one infinite sequence. It is what a
claim quantifies over, no part of `State`. -/
abbrev Schedule := Nat → Agent

/-- `s` with the schedule script replaced (the model's own port, log entry 1). -/
def State.withSchedule (s : State) (l : List Agent) : State := s.setInputs { s.inputs with schedule := l }

/-- `s` with the next turn given to `a`. -/
def State.enable (s : State) (a : Agent) : State := s.withSchedule (a :: s.inputs.schedule)

/-- The state that `step` leaves, `s` itself when there is no transition (R229, R235). -/
def State.stepped (s : State) : State :=
  match step s with
  | .next t => t
  | .fault _ => s
  | .refused _ => s

/-- The state after agent `a` is enabled once: its transition, or `s` itself when it has none. -/
def State.onEnable (s : State) (a : Agent) : State :=
  match step (s.enable a) with
  | .next t => t
  | .fault _ => s
  | .refused _ => s

/-- The state after the first `n` enables of the schedule `sched` (R233). -/
def runUnder (sched : Schedule) (s : State) : Nat → State
  | 0 => s
  | n + 1 => (runUnder sched s n).onEnable (sched n)

/-- Weak fairness of both agents (R234): an agent is enabled by the machine as long as `STATUS = RUNNING`, and if that
holds from some moment on for ever, the schedule gives the agent a turn after that moment. Neither is postponed for
ever. -/
def weaklyFair (sched : Schedule) (s : State) : Prop :=
  ∀ (a : Agent) (n : Nat), (∀ m, n ≤ m → (runUnder sched s m).status = .running) → ∃ m, n ≤ m ∧ sched m = a

/-- How many of the first `n` turns are the instruction agent's. -/
def instructionTurns (sched : Schedule) : Nat → Nat
  | 0 => 0
  | n + 1 => instructionTurns sched n + if sched n = .instruction then 1 else 0

end Sys2Proof.Machine
end

