-- ==== Sys2Proof/Safety.lean ====
section
/-! DEFINITION. The terms claims are stated in: what the outside reads (spec/10_state.md rule R37), what an instruction
leaves unchanged, which pixels a sprite lies over, and the invariant of reachable states. -/

namespace Sys2Proof.Machine

/-! ### The output ports (R37) -/

/-- The `display` port: all of `FB`, read only. -/
def State.displayPort (s : State) : Framebuffer := s.fb

/-- The `status` port: `STATUS` and `ERR`; the registers are the state's own fields. -/
def State.statusPort (s : State) : Status × Option ErrorRecord := (s.status, s.err)

/-- A run has ended (R270): these are the only final states. -/
def State.ended (s : State) : Bool := decide (s.status ≠ .running)

/-! ### What stays -/

/-- The pieces of state beside the general registers and `pc`. -/
inductive Part where
  | index | sp | stack | dt | st | mem | fb | status | err | inputs
  deriving DecidableEq, Repr

/-- `p` is the same in `s` and `t`; memory by every byte read, the framebuffer by every pixel. -/
def Part.unchanged (s t : State) : Part → Prop
  | .index => t.i = s.i
  | .sp => t.sp = s.sp
  | .stack => ∀ k, t.slot k = s.slot k
  | .dt => t.dt = s.dt
  | .st => t.st = s.st
  | .mem => ∀ a, t.readByte a = s.readByte a
  | .fb => ∀ r c, t.pixel r c = s.pixel r c
  | .status => t.status = s.status
  | .err => t.err = s.err
  | .inputs => t.inputs = s.inputs

/-- Nothing changed from `s` to `t` but, at most, the listed parts, the listed general registers, and `pc`. -/
def changesOnly (parts : List Part) (regs : List Reg) (s t : State) : Prop :=
  (∀ p, p ∉ parts → p.unchanged s t) ∧ ∀ r, r ∉ regs → t.reg r = s.reg r

/-- `i` at `s` answers a next state of which `post` holds. -/
def completes (i : Instr) (s : State) (post : State → Prop) : Prop := ∃ t, exec i s = .next t ∧ post t

/-- `t` is what fault entry leaves of `s` (R227): `STATUS = FAULT`, the record, `pc` still at the fetch address, and
everything else as it was. -/
def faultEntry (s t : State) (kind : FatalKind) (opcode : Option Word) (addr : Option Nat) : Prop :=
  t.status = .fault ∧ t.err = some { kind := kind, pc := s.pc, opcode := opcode, addr := addr } ∧ t.pc = s.pc ∧
    changesOnly [.status, .err] [] s t

/-- The instruction agent is to fetch at `s`: the unit runs and the turn is the instruction agent's. -/
def instructionTurn (s : State) : Prop := s.status = .running ∧ s.nextAgent = .instruction

/-! ### Which instruction writes what (R23, R26, R35, R70, R105) -/

/-- The parts an instruction may change when it raises nothing (R35's columns of instruction writes; R32, R70 for `FB`
and `MEM`; the input ports for the four that query a source). -/
def mayChange : Instr → List Part
  | .cls | .drw _ _ _ => [.fb]
  | .ret => [.sp]
  | .jp _ => [.status]
  | .call _ => [.sp, .stack]
  | .ldI _ | .addI _ | .ldF _ => [.index]
  | .rnd _ _ | .skp _ | .sknp _ | .ldVxK _ => [.inputs]
  | .ldDtVx _ => [.dt]
  | .ldStVx _ => [.st]
  | .ldB _ | .ldMemVx _ => [.mem]
  | .seImm _ _ | .sneImm _ _ | .seReg _ _ | .sneReg _ _ | .ldImm _ _ | .addImm _ _ | .ldReg _ _ | .orReg _ _
  | .andReg _ _ | .xorReg _ _ | .addReg _ _ | .subReg _ _ | .shr _ _ | .subnReg _ _ | .shl _ _ | .jpV0 _
  | .ldVxDt _ | .ldVxMem _ => []

/-- The general registers an instruction may write when it raises nothing (R21, R23). -/
def mayWriteRegs : Instr → List Reg
  | .ldImm x _ | .addImm x _ | .ldReg x _ | .orReg x _ | .andReg x _ | .xorReg x _ | .rnd x _ | .ldVxDt x | .ldVxK x =>
    [x]
  | .addReg x _ | .subReg x _ | .shr x _ | .subnReg x _ | .shl x _ => [x, 15]
  | .drw _ _ _ => [15]
  | .ldVxMem x => (List.finRange 16).filter (fun k => decide (k.val ≤ x.val))
  | .cls | .ret | .jp _ | .call _ | .seImm _ _ | .sneImm _ _ | .seReg _ _ | .sneReg _ _ | .ldI _ | .jpV0 _ | .skp _
  | .sknp _ | .ldDtVx _ | .ldStVx _ | .addI _ | .ldF _ | .ldB _ | .ldMemVx _ => []

/-- The instructions that set `pc` themselves (R105). -/
def ownsPc : Instr → Bool
  | .jp _ | .call _ | .ret | .jpV0 _ | .seImm _ _ | .sneImm _ _ | .seReg _ _ | .sneReg _ _ | .skp _ | .sknp _
  | .ldVxK _ => true
  | .cls | .ldImm _ _ | .addImm _ _ | .ldReg _ _ | .orReg _ _ | .andReg _ _ | .xorReg _ _ | .addReg _ _ | .subReg _ _
  | .shr _ _ | .subnReg _ _ | .shl _ _ | .ldI _ | .rnd _ _ | .drw _ _ _ | .ldVxDt _ | .ldDtVx _ | .ldStVx _ | .addI _
  | .ldF _ | .ldB _ | .ldMemVx _ | .ldVxMem _ => false

/-- The three instructions that touch a timer (spec/45_timer_transfer.md). -/
def touchesTimers : Instr → Bool
  | .ldVxDt _ | .ldDtVx _ | .ldStVx _ => true
  | .cls | .ret | .jp _ | .call _ | .seImm _ _ | .sneImm _ _ | .seReg _ _ | .ldImm _ _ | .addImm _ _ | .ldReg _ _
  | .orReg _ _ | .andReg _ _ | .xorReg _ _ | .addReg _ _ | .subReg _ _ | .shr _ _ | .subnReg _ _ | .shl _ _
  | .sneReg _ _ | .ldI _ | .jpV0 _ | .rnd _ _ | .drw _ _ _ | .skp _ | .sknp _ | .ldVxK _ | .addI _ | .ldF _ | .ldB _
  | .ldMemVx _ | .ldVxMem _ => false

/-! ### Sprites (R181, R183) -/

/-- The pixel at row `r` and column `c` lies under a 1 bit of the sprite that `DRW Vx, Vy, n` draws at `s`. -/
def spriteCovers (s : State) (x y : Reg) (n : Nat) (r : Fin 32) (c : Fin 64) : Prop :=
  ∃ row col, row < n ∧ col < 8 ∧ r.val = ((s.reg y).toNat % 32 + row) % 32 ∧
    c.val = ((s.reg x).toNat % 64 + col) % 64 ∧ (s.readByte (s.i.toNat + row)).getLsbD (7 - col) = true

/-! ### Executions (R234) -/

/-- `t` is `s` but for the two timers and the count of turns taken, the model's own. -/
def sameButTimers (s t : State) : Prop :=
  t = { s with dt := t.dt, st := t.st, inputs := { s.inputs with turns := t.inputs.turns } }

/-- The word in memory at `a` and `a + 1`, in the order of a fetch (R63). -/
def State.wordAt (s : State) (a : Nat) : Word := wordOfBytes (s.readByte a) (s.readByte (a + 1))

/-- The delay loop of R234 (a loop that waits for `DT` to reach 0, as in spec/95_test_vectors.md P4) stands at `nnn`: `LD Vx, DT`, `SE Vx, 0`, `JP nnn`. -/
def State.pollsDelayTimerAt (s : State) (nnn : Addr12) (x : Reg) : Prop :=
  nnn.toNat ≤ 4090 ∧ s.wordAt nnn.toNat = encode (.ldVxDt x) ∧
    s.wordAt (nnn.toNat + 2) = encode (.seImm x 0) ∧ s.wordAt (nnn.toNat + 4) = encode (.jp nnn)

/-! ### The invariant of reachable states -/

/-- What holds after reset and after every transition of either agent: memory in canonical form; `ERR` present exactly
when `STATUS = FAULT` (R34), and then naming `pc` (R228); `pc` at most 4350 (R25, R35); every stack slot at most 4096
and slot 0 never written (R28, R35). -/
structure State.Inv (s : State) : Prop where
  memory  : s.mem.wf
  errIff  : s.status = .fault ↔ s.err.isSome = true
  errPc   : ∀ e, s.err = some e → e.pc = s.pc
  pcBound : s.pc.toNat ≤ 4350
  slots   : ∀ k, (s.slot k).toNat ≤ 4096
  slot0   : s.slot 0 = 0

end Sys2Proof.Machine
end

