-- ==== Sys2Proof/Certificates/Slice0/Obligations.lean ====
section
/-! DEFINITION. What is claimed of the model, from the numbered rules of spec/. A statement whose clause rests on one of
the spec's own decisions (D<n> of spec/92_eei_decisions.md), on its general knowledge (G<n>), or on a choice of the model
says so and is marked derived in OBLIGATIONS.json. -/

open Sys2Proof Sys2Proof.Machine

/-! ### Encoding (spec/30_encoding.md) -/

/-- A few words written out bit by bit from R92 and R95, with two named unrecognised ones of R97; the value assignment is
the spec's general knowledge G1 (log entry 11). -/
def Obligations.WrittenWordsClassify : Prop :=
  classify 0b0000000011100000#16 = some .cls ∧ classify 0b0010001000001010#16 = some (.call 0x20A#12) ∧
  classify 0b0011001100101010#16 = some (.seImm 3 0x2A#8) ∧ classify 0b1000101010110100#16 = some (.addReg 10 11) ∧
  classify 0b0111000100000101#16 = some (.addImm 1 0x05#8) ∧ classify 0b1101000100101111#16 = some (.drw 1 2 15) ∧
  classify 0b1110001010011110#16 = some (.skp 2) ∧ classify 0b1111010000010101#16 = some (.ldDtVx 4) ∧
  decode [0b11111001#8, 0b01100101#8, 0#8] = .ok (.ldVxMem 9, [0#8]) ∧
  classify 0b1000000100101000#16 = none ∧ classify 0#16 = none ∧ decode [0x12#8] = .error .truncated

/-- Decode and encode agree on every instruction with every operand: no bit of an encoding is dropped. -/
def Obligations.DecodeOfEncodeIsTheInstruction : Prop :=
  ∀ (i : Instr) (rest : List Byte), decode (bytesOfWord (encode i) ++ rest) = .ok (i, rest)

/-- The other direction: a recognised word is the encoding of its instruction. For the shifts, whose `y` field the spec
ignores (R103: any `y` decodes to the same instruction), this is so because `Instr` keeps that field as an operand, the
model's own choice (DESIGN CHOICE, log entry 23). -/
def Obligations.EncodeOfClassifiedWordIsTheWord : Prop :=
  ∀ (op : Word) (i : Instr), classify op = some i → encode i = op

/-- The opcode map of R95, each row as an arithmetic pattern; the value assignment is the spec's general knowledge G1,
decision D27 (log entry 11). -/
def Obligations.OpcodeMapSelectsTheInstruction : Prop :=
  classify 0x00E0#16 = some .cls ∧ classify 0x00EE#16 = some .ret ∧
  (∀ nnn : Addr12,
    classify (BitVec.ofNat 16 (0x1000 + nnn.toNat)) = some (.jp nnn) ∧
    classify (BitVec.ofNat 16 (0x2000 + nnn.toNat)) = some (.call nnn) ∧
    classify (BitVec.ofNat 16 (0xA000 + nnn.toNat)) = some (.ldI nnn) ∧
    classify (BitVec.ofNat 16 (0xB000 + nnn.toNat)) = some (.jpV0 nnn)) ∧
  (∀ (x : Reg) (kk : Byte),
    classify (BitVec.ofNat 16 (0x3000 + 0x100 * x.val + kk.toNat)) = some (.seImm x kk) ∧
    classify (BitVec.ofNat 16 (0x4000 + 0x100 * x.val + kk.toNat)) = some (.sneImm x kk) ∧
    classify (BitVec.ofNat 16 (0x6000 + 0x100 * x.val + kk.toNat)) = some (.ldImm x kk) ∧
    classify (BitVec.ofNat 16 (0x7000 + 0x100 * x.val + kk.toNat)) = some (.addImm x kk) ∧
    classify (BitVec.ofNat 16 (0xC000 + 0x100 * x.val + kk.toNat)) = some (.rnd x kk)) ∧
  (∀ x y : Reg,
    classify (BitVec.ofNat 16 (0x5000 + 0x100 * x.val + 0x10 * y.val)) = some (.seReg x y) ∧
    classify (BitVec.ofNat 16 (0x8000 + 0x100 * x.val + 0x10 * y.val)) = some (.ldReg x y) ∧
    classify (BitVec.ofNat 16 (0x8001 + 0x100 * x.val + 0x10 * y.val)) = some (.orReg x y) ∧
    classify (BitVec.ofNat 16 (0x8002 + 0x100 * x.val + 0x10 * y.val)) = some (.andReg x y) ∧
    classify (BitVec.ofNat 16 (0x8003 + 0x100 * x.val + 0x10 * y.val)) = some (.xorReg x y) ∧
    classify (BitVec.ofNat 16 (0x8004 + 0x100 * x.val + 0x10 * y.val)) = some (.addReg x y) ∧
    classify (BitVec.ofNat 16 (0x8005 + 0x100 * x.val + 0x10 * y.val)) = some (.subReg x y) ∧
    classify (BitVec.ofNat 16 (0x8006 + 0x100 * x.val + 0x10 * y.val)) = some (.shr x y) ∧
    classify (BitVec.ofNat 16 (0x8007 + 0x100 * x.val + 0x10 * y.val)) = some (.subnReg x y) ∧
    classify (BitVec.ofNat 16 (0x800E + 0x100 * x.val + 0x10 * y.val)) = some (.shl x y) ∧
    classify (BitVec.ofNat 16 (0x9000 + 0x100 * x.val + 0x10 * y.val)) = some (.sneReg x y)) ∧
  (∀ x y n : Fin 16,
    classify (BitVec.ofNat 16 (0xD000 + 0x100 * x.val + 0x10 * y.val + n.val)) = some (.drw x y n)) ∧
  (∀ x : Reg,
    classify (BitVec.ofNat 16 (0xE09E + 0x100 * x.val)) = some (.skp x) ∧
    classify (BitVec.ofNat 16 (0xE0A1 + 0x100 * x.val)) = some (.sknp x) ∧
    classify (BitVec.ofNat 16 (0xF007 + 0x100 * x.val)) = some (.ldVxDt x) ∧
    classify (BitVec.ofNat 16 (0xF00A + 0x100 * x.val)) = some (.ldVxK x) ∧
    classify (BitVec.ofNat 16 (0xF015 + 0x100 * x.val)) = some (.ldDtVx x) ∧
    classify (BitVec.ofNat 16 (0xF018 + 0x100 * x.val)) = some (.ldStVx x) ∧
    classify (BitVec.ofNat 16 (0xF01E + 0x100 * x.val)) = some (.addI x) ∧
    classify (BitVec.ofNat 16 (0xF029 + 0x100 * x.val)) = some (.ldF x) ∧
    classify (BitVec.ofNat 16 (0xF033 + 0x100 * x.val)) = some (.ldB x) ∧
    classify (BitVec.ofNat 16 (0xF055 + 0x100 * x.val)) = some (.ldMemVx x) ∧
    classify (BitVec.ofNat 16 (0xF065 + 0x100 * x.val)) = some (.ldVxMem x))

/-- The unrecognised words are exactly the families of R97's table (its counts are not stated here). -/
def Obligations.UnrecognisedWordsAreThoseOfTheTable : Prop :=
  ∀ op : Word, classify op = none ↔
    (op.toNat < 0x1000 ∧ op ≠ 0x00E0#16 ∧ op ≠ 0x00EE#16) ∨
    (op.toNat / 0x1000 = 0x5 ∧ op.toNat % 16 ≠ 0) ∨
    (op.toNat / 0x1000 = 0x8 ∧ op.toNat % 16 ∈ [0x8, 0x9, 0xA, 0xB, 0xC, 0xD, 0xF]) ∨
    (op.toNat / 0x1000 = 0x9 ∧ op.toNat % 16 ≠ 0) ∨
    (op.toNat / 0x1000 = 0xE ∧ op.toNat % 256 ∉ [0x9E, 0xA1]) ∨
    (op.toNat / 0x1000 = 0xF ∧
      op.toNat % 256 ∉ [0x07, 0x0A, 0x15, 0x18, 0x1E, 0x29, 0x33, 0x55, 0x65])

/-! ### The step and the two agents -/

/-- On the instruction agent's turn, a step is `exec` of the instruction that the two bytes at `pc` decode to; around it
the step only takes the turn from the schedule, the model's own input port (log entry 1). -/
def Obligations.StepRunsTheDecodedInstruction : Prop :=
  ∀ (s : State) (i : Instr), instructionTurn s → s.pc.toNat ≤ 4094 →
    decode [s.readByte s.pc.toNat, s.readByte (s.pc.toNat + 1)] = .ok (i, []) →
    step s = exec i s.afterAgent ∧ changesOnly [.inputs] [] s s.afterAgent ∧ s.afterAgent.pc = s.pc

/-- R235: once `STATUS` is not `RUNNING` neither agent has a transition, whatever the schedule says; reset starts both
again with `DT = ST = 0`. -/
def Obligations.StoppedMachineTakesNoStep : Prop :=
  ∀ s : State,
    (s.status ≠ .running → ∀ t, step s ≠ .next t) ∧
    ∀ rom font t, s.applyReset rom font = some t → t.status = .running ∧ t.dt = 0 ∧ t.st = 0

/-- R63 and R67: a fetch in range reads the byte at the lower address as the high byte; a fetch above 4094 raises
`MemRange` with the address `pc` and no opcode, and changes nothing else. -/
def Obligations.FetchIsBigEndianAndRangeChecked : Prop :=
  ∀ s : State,
    (s.pc.toNat ≤ 4094 →
      ∃ op, s.fetch = some op ∧
        op.toNat = 256 * (s.readByte s.pc.toNat).toNat + (s.readByte (s.pc.toNat + 1)).toNat) ∧
    (instructionTurn s → 4094 < s.pc.toNat →
      ∃ t, step s = .next t ∧ faultEntry s.afterAgent t .memRange none (some s.pc.toNat))

/-- An unrecognised word raises `UnrecognizedOpcode` with that word; it is not executed in any part. -/
def Obligations.UnrecognisedWordRaises : Prop :=
  ∀ (s : State) (op : Word), instructionTurn s → s.fetch = some op → classify op = none →
    ∃ t, step s = .next t ∧ faultEntry s.afterAgent t .unrecognizedOpcode (some op) none

/-- R232: a tick decrements each timer that is greater than 0, and touches nothing else. -/
def Obligations.TickCountsBothTimersDown : Prop :=
  ∀ s : State,
    (s.status = .running → s.nextAgent = .timer →
      ∃ t, step s = .next t ∧
        t.dt.toNat = (if s.dt.toNat > 0 then s.dt.toNat - 1 else 0) ∧
        t.st.toNat = (if s.st.toNat > 0 then s.st.toNat - 1 else 0) ∧
        t.pc = s.pc ∧ changesOnly [.dt, .st] [] s.afterAgent t) ∧
    (s.status ≠ .running → ∀ t, step s ≠ .next t)

/-- Any number of ticks: the timers floor at 0 and nothing else moves ("starting at 5 and ticking 10 times yields 0"). -/
def Obligations.RepeatedTicksFloorAtZero : Prop :=
  ∀ (s : State) (n : Nat),
    (State.tick^[n] s).dt.toNat = s.dt.toNat - n ∧ (State.tick^[n] s).st.toNat = s.st.toNat - n ∧
    (State.tick^[n] s).pc = s.pc ∧ changesOnly [.dt, .st] [] s (State.tick^[n] s)

/-- `tick`, the effect of a tick on the state whatever `STATUS` says, commutes with every instruction that touches no
timer. Where the instruction leaves `RUNNING` (a halt, a raise) R235 gives no tick after it, so there only the order
'tick, then instruction' is an execution, and `DT` shows which it was. -/
def Obligations.TicksCommuteWithTimerFreeInstructions : Prop :=
  ∀ (i : Instr) (s : State), touchesTimers i = false →
    ∃ t, exec i s = .next t ∧ exec i s.tick = .next t.tick

/-! ### Control flow (spec/40_control_flow.md) -/

/-- R130, with R225 and R235: `JP` to its own address halts, leaving `pc`, `ERR` and everything else, and no agent steps
afterwards; any other target goes to `pc` and changes nothing else. -/
def Obligations.JumpToSelfHaltsElseJumps : Prop :=
  ∀ (s : State) (nnn : Addr12),
    (nnn.toNat = s.pc.toNat →
      completes (.jp nnn) s fun t =>
        t.status = .halted ∧ t.pc = s.pc ∧ changesOnly [.status] [] s t ∧ ∀ u, step t ≠ .next u) ∧
    (nnn.toNat ≠ s.pc.toNat →
      completes (.jp nnn) s fun t => t.pc.toNat = nnn.toNat ∧ changesOnly [] [] s t)

/-- `CALL` below the maximum depth: `SP` is incremented, the new slot holds the address of the next instruction (`a + 2`,
the spec's decision D4), `pc` is the target. A `CALL` to itself is no halt (D17). -/
def Obligations.CallPushesReturnAddress : Prop :=
  ∀ (s : State) (nnn : Addr12), s.sp.val < 15 →
    completes (.call nnn) s fun t =>
      t.sp.val = s.sp.val + 1 ∧ t.slot t.sp = s.pc + 2 ∧ (∀ k, k ≠ t.sp → t.slot k = s.slot k) ∧
      t.pc.toNat = nnn.toNat ∧ changesOnly [.sp, .stack] [] s t

/-- R222 and R223: `CALL` at `SP = 15` and `RET` at `SP = 0` enter the fatal condition; `SP`, `STACK`, `pc` and all else
are unchanged. The record's fields are the spec's decision D19. -/
def Obligations.StackBoundsRaise : Prop :=
  ∀ (s : State) (nnn : Addr12),
    (s.sp.val = 15 →
      completes (.call nnn) s fun t =>
        faultEntry s t .stackOverflow (some (BitVec.ofNat 16 (0x2000 + nnn.toNat))) none) ∧
    (s.sp.val = 0 → completes .ret s fun t => faultEntry s t .stackUnderflow (some 0x00EE#16) none)

/-- R132: `RET` loads `pc` from the top slot, then decrements `SP`; the slot keeps its value; empty is underflow. -/
def Obligations.ReturnPopsThePc : Prop :=
  ∀ s : State,
    (s.sp.val ≠ 0 →
      completes .ret s fun t => t.pc = s.slot s.sp ∧ t.sp.val = s.sp.val - 1 ∧ changesOnly [.sp] [] s t) ∧
    (s.sp.val = 0 → completes .ret s fun t => faultEntry s t .stackUnderflow (some 0x00EE#16) none)

/-- A call and a later return on an undisturbed top slot come back to the instruction after the call, with the old
depth (D4 fixes what the slot holds). -/
def Obligations.ReturnComesBackToAfterTheCall : Prop :=
  ∀ (s : State) (nnn : Addr12), s.sp.val < 15 →
    completes (.call nnn) s fun t =>
      ∀ u : State, u.sp = t.sp → u.slot t.sp = t.slot t.sp →
        completes .ret u fun w => w.pc = s.pc + 2 ∧ w.sp = s.sp

/-- `JP V0, nnn`: the sum goes to `pc` unreduced, and it is never a halt. The operation is the spec's general knowledge
G2, decisions D17 and D18 (log entry 12). -/
def Obligations.JumpV0AddsRegisterZero : Prop :=
  ∀ (s : State) (nnn : Addr12),
    completes (.jpV0 nnn) s fun t => t.pc.toNat = nnn.toNat + (s.reg 0).toNat ∧ changesOnly [] [] s t

/-- R134 to R137: the four register skips go to `a + 4` when their condition holds and to `a + 2` when it does not, and
change nothing else. -/
def Obligations.RegisterSkipsGoByFourOrTwo : Prop :=
  ∀ (s : State) (x y : Reg) (kk : Byte),
    (completes (.seImm x kk) s fun t =>
      t.pc = s.pc + (if s.reg x = kk then 4 else 2) ∧ changesOnly [] [] s t) ∧
    (completes (.sneImm x kk) s fun t =>
      t.pc = s.pc + (if s.reg x = kk then 2 else 4) ∧ changesOnly [] [] s t) ∧
    (completes (.seReg x y) s fun t =>
      t.pc = s.pc + (if s.reg x = s.reg y then 4 else 2) ∧ changesOnly [] [] s t) ∧
    (completes (.sneReg x y) s fun t =>
      t.pc = s.pc + (if s.reg x = s.reg y then 2 else 4) ∧ changesOnly [] [] s t)

/-! ### ALU and immediates (spec/41_alu.md, spec/42_immediate_index_random.md) -/

/-- R151 and R170: copy and load immediate write their destination, `VF` like any other register, and nothing else. -/
def Obligations.CopyAndLoadImmediateWriteOneRegister : Prop :=
  ∀ (s : State) (x y : Reg) (kk : Byte),
    (completes (.ldReg x y) s fun t => t.reg x = s.reg y ∧ t.pc = s.pc + 2 ∧ changesOnly [] [x] s t) ∧
    (completes (.ldImm x kk) s fun t => t.reg x = kk ∧ t.pc = s.pc + 2 ∧ changesOnly [] [x] s t)

/-- `OR`, `AND`, `XOR` bit by bit; `VF` is left alone (the spec's decision D9). -/
def Obligations.LogicOperationsAreBitwise : Prop :=
  ∀ (s : State) (x y : Reg),
    (completes (.orReg x y) s fun t =>
      (∀ b, (t.reg x).getLsbD b = ((s.reg x).getLsbD b || (s.reg y).getLsbD b)) ∧
      t.pc = s.pc + 2 ∧ changesOnly [] [x] s t) ∧
    (completes (.andReg x y) s fun t =>
      (∀ b, (t.reg x).getLsbD b = ((s.reg x).getLsbD b && (s.reg y).getLsbD b)) ∧
      t.pc = s.pc + 2 ∧ changesOnly [] [x] s t) ∧
    (completes (.xorReg x y) s fun t =>
      (∀ b, (t.reg x).getLsbD b = ((s.reg x).getLsbD b != (s.reg y).getLsbD b)) ∧
      t.pc = s.pc + 2 ∧ changesOnly [] [x] s t)

/-- R155: the sum modulo 256 and the carry; with `x = 15` `VF` ends as the carry. -/
def Obligations.AddWritesSumAndCarry : Prop :=
  ∀ (s : State) (x y : Reg),
    completes (.addReg x y) s fun t =>
      (x ≠ 15 → (t.reg x).toNat = ((s.reg x).toNat + (s.reg y).toNat) % 256) ∧
      (t.reg 15).toNat = (if (s.reg x).toNat + (s.reg y).toNat > 255 then 1 else 0) ∧
      t.pc = s.pc + 2 ∧ changesOnly [] [x, 15] s t

/-- R156: the difference `V[x] - V[y]` modulo 256, negative differences plus 256, and the no-borrow flag. -/
def Obligations.SubWritesDifferenceAndNoBorrow : Prop :=
  ∀ (s : State) (x y : Reg),
    completes (.subReg x y) s fun t =>
      (x ≠ 15 → ((t.reg x).toNat : Int) = (((s.reg x).toNat : Int) - (s.reg y).toNat) % 256) ∧
      (t.reg 15).toNat = (if (s.reg x).toNat ≥ (s.reg y).toNat then 1 else 0) ∧
      t.pc = s.pc + 2 ∧ changesOnly [] [x, 15] s t

/-- R158: the difference `V[y] - V[x]` modulo 256 into `V[x]`, and the no-borrow flag. -/
def Obligations.SubnWritesReverseDifference : Prop :=
  ∀ (s : State) (x y : Reg),
    completes (.subnReg x y) s fun t =>
      (x ≠ 15 → ((t.reg x).toNat : Int) = (((s.reg y).toNat : Int) - (s.reg x).toNat) % 256) ∧
      (t.reg 15).toNat = (if (s.reg y).toNat ≥ (s.reg x).toNat then 1 else 0) ∧
      t.pc = s.pc + 2 ∧ changesOnly [] [x, 15] s t

/-- The shifts: `V[x]` in place by one, `y` ignored (the spec's decision D8), the flag is the bit shifted out and is
written last. -/
def Obligations.ShiftsWriteResultAndBitOut : Prop :=
  ∀ (s : State) (x y : Reg),
    (completes (.shr x y) s fun t =>
      (x ≠ 15 → (t.reg x).toNat = (s.reg x).toNat / 2) ∧ (t.reg 15).toNat = (s.reg x).toNat % 2 ∧
      t.pc = s.pc + 2 ∧ changesOnly [] [x, 15] s t) ∧
    (completes (.shl x y) s fun t =>
      (x ≠ 15 → (t.reg x).toNat = 2 * (s.reg x).toNat % 256) ∧ (t.reg 15).toNat = (s.reg x).toNat / 128 ∧
      t.pc = s.pc + 2 ∧ changesOnly [] [x, 15] s t)

/-- `ADD Vx, kk` modulo 256 and `ADD I, Vx` modulo 65536; `VF` is left alone (the spec's decision D9). -/
def Obligations.ImmediateAndIndexAddsLeaveTheFlag : Prop :=
  ∀ (s : State) (x : Reg) (kk : Byte),
    (completes (.addImm x kk) s fun t =>
      (t.reg x).toNat = ((s.reg x).toNat + kk.toNat) % 256 ∧ t.pc = s.pc + 2 ∧ changesOnly [] [x] s t) ∧
    (completes (.addI x) s fun t =>
      t.i.toNat = (s.i.toNat + (s.reg x).toNat) % 65536 ∧ t.pc = s.pc + 2 ∧ changesOnly [.index] [] s t)

/-- R172: `LD I, nnn` puts the zero-extended address in `I`. -/
def Obligations.LoadIndexZeroExtends : Prop :=
  ∀ (s : State) (nnn : Addr12),
    completes (.ldI nnn) s fun t => t.i.toNat = nnn.toNat ∧ t.pc = s.pc + 2 ∧ changesOnly [.index] [] s t

/-- `RND` writes the next random byte under the mask, one draw per execution, and that byte is whatever the source
answers (a free value, D15, log entry 2). -/
def Obligations.RandomByteIsMasked : Prop :=
  ∀ (s : State) (x : Reg) (kk : Byte),
    (∀ r rest, s.inputs.rand = r :: rest → s.nextRand = r) ∧
    completes (.rnd x kk) s fun t =>
      (∀ b, (t.reg x).getLsbD b = (s.nextRand.getLsbD b && kk.getLsbD b)) ∧ t.pc = s.pc + 2 ∧
      t.inputs = s.afterRand.inputs ∧ changesOnly [.inputs] [x] s t

/-! ### Display (spec/43_display.md) -/

/-- `CLS`: every pixel 0; `VF` and everything else unchanged (the spec's decision D9). -/
def Obligations.ClearScreenZeroesEveryPixel : Prop :=
  ∀ s : State,
    completes .cls s fun t => (∀ r c, t.pixel r c = false) ∧ t.pc = s.pc + 2 ∧ changesOnly [.fb] [] s t

/-- `DRW` in range: exactly the pixels under a 1 bit of the sprite are inverted, with wrap-around, and `VF` is 1 iff one
of them was set, else 0; `n = 0` needs no range. The bit and row order are the spec's decision D16 (log entry 18), the
form `n = 0` its decision D25. -/
def Obligations.DrawInvertsExactlyTheSprite : Prop :=
  ∀ (s : State) (x y : Reg) (n : Fin 16), (n.val = 0 ∨ s.i.toNat + (n.val - 1) ≤ 4095) →
    completes (.drw x y n) s fun t =>
      (∀ r c, (spriteCovers s x y n.val r c → t.pixel r c = !s.pixel r c) ∧
        (¬ spriteCovers s x y n.val r c → t.pixel r c = s.pixel r c)) ∧
      ((∃ r c, spriteCovers s x y n.val r c ∧ s.pixel r c = true) → t.reg 15 = 1) ∧
      ((¬ ∃ r c, spriteCovers s x y n.val r c ∧ s.pixel r c = true) → t.reg 15 = 0) ∧
      t.pc = s.pc + 2 ∧ changesOnly [.fb] [15] s t

/-- Double XOR: a second draw of the same sprite at the same place restores the screen; the first flag tells whether a
touched pixel was set before, the second whether one was clear; a sprite without a 1 bit gives 0 both times. -/
def Obligations.DrawingTwiceRestoresTheScreen : Prop :=
  ∀ (s : State) (x y : Reg) (n : Fin 16), (n.val = 0 ∨ s.i.toNat + (n.val - 1) ≤ 4095) →
    completes (.drw x y n) s fun t =>
      (t.reg 15 = 1 ↔ ∃ r c, spriteCovers s x y n.val r c ∧ s.pixel r c = true) ∧
      ((t.reg x).toNat % 64 = (s.reg x).toNat % 64 → (t.reg y).toNat % 32 = (s.reg y).toNat % 32 →
        completes (.drw x y n) t fun u =>
          (∀ r c, u.pixel r c = s.pixel r c) ∧
          (u.reg 15 = 1 ↔ ∃ r c, spriteCovers s x y n.val r c ∧ s.pixel r c = false) ∧
          ((∀ r c, ¬ spriteCovers s x y n.val r c) → t.reg 15 = 0 ∧ u.reg 15 = 0))

/-! ### Input and timers (spec/44_input.md, spec/45_timer_transfer.md) -/

/-- Within one sample the two queries agree, and there is no key above 15 (the spec's decisions D13 and D14). -/
def Obligations.KeyQueriesAgree : Prop :=
  ∀ sample : KeySample,
    (∀ k, anyKey sample = some k → keyDown sample (BitVec.ofNat 8 k.val) = true) ∧
    (anyKey sample = none ↔ ∀ k, keyDown sample k = false) ∧
    ∀ k : Byte, 15 < k.toNat → keyDown sample k = false

/-- `SKP` and `SKNP` compare the whole 8-bit `V[x]` with the keys down in the sample they take (the spec's decision
D13), and change nothing but the key port. -/
def Obligations.KeySkipsFollowTheSample : Prop :=
  ∀ (s : State) (x : Reg),
    ((∃ key ∈ s.nextKeys, key.val = (s.reg x).toNat) →
      (completes (.skp x) s fun t =>
        t.pc = s.pc + 4 ∧ t.inputs = s.afterKeys.inputs ∧ changesOnly [.inputs] [] s t) ∧
      completes (.sknp x) s fun t =>
        t.pc = s.pc + 2 ∧ t.inputs = s.afterKeys.inputs ∧ changesOnly [.inputs] [] s t) ∧
    ((¬ ∃ key ∈ s.nextKeys, key.val = (s.reg x).toNat) →
      (completes (.skp x) s fun t =>
        t.pc = s.pc + 2 ∧ t.inputs = s.afterKeys.inputs ∧ changesOnly [.inputs] [] s t) ∧
      completes (.sknp x) s fun t =>
        t.pc = s.pc + 4 ∧ t.inputs = s.afterKeys.inputs ∧ changesOnly [.inputs] [] s t)

/-- `LD Vx, K`: a reported key is loaded at once; with no key down nothing changes and `pc` stays (the spec's decision
D12, conflict C5). -/
def Obligations.KeyWaitLoadsOrRepeats : Prop :=
  ∀ (s : State) (x : Reg),
    (∀ k rest, s.nextKeys = k :: rest →
      completes (.ldVxK x) s fun t =>
        (t.reg x).toNat = k.val ∧ t.pc = s.pc + 2 ∧ t.inputs = s.afterKeys.inputs ∧ changesOnly [.inputs] [x] s t) ∧
    (s.nextKeys = [] →
      completes (.ldVxK x) s fun t =>
        t.pc = s.pc ∧ t.inputs = s.afterKeys.inputs ∧ changesOnly [.inputs] [] s t)

/-- R200 to R202: the three timer transfers, each writing its destination alone. -/
def Obligations.TimerTransfersCopyTheByte : Prop :=
  ∀ (s : State) (x : Reg),
    (completes (.ldVxDt x) s fun t => t.reg x = s.dt ∧ t.pc = s.pc + 2 ∧ changesOnly [] [x] s t) ∧
    (completes (.ldDtVx x) s fun t => t.dt = s.reg x ∧ t.pc = s.pc + 2 ∧ changesOnly [.dt] [] s t) ∧
    (completes (.ldStVx x) s fun t => t.st = s.reg x ∧ t.pc = s.pc + 2 ∧ changesOnly [.st] [] s t)

/-- Nothing reads `ST`: two states that differ in `ST` alone run every instruction alike, up to `ST`. -/
def Obligations.SoundTimerIsReadByNothing : Prop :=
  ∀ (i : Instr) (s : State) (a : Byte), ∃ t b, exec i s = .next t ∧ exec i (s.setSt a) = .next (t.setSt b)

/-! ### Memory transfer (spec/46_memory_transfer.md, spec/20_memory.md) -/

/-- `LD F, Vx`: five times the low 4 bits (the spec's decisions D11 and D22), at most 75, no access and no fault. -/
def Obligations.FontAddressIsFiveTimesTheDigit : Prop :=
  ∀ (s : State) (x : Reg),
    completes (.ldF x) s fun t =>
      t.i.toNat = 5 * ((s.reg x).toNat % 16) ∧ t.i.toNat ≤ 75 ∧ t.pc = s.pc + 2 ∧ changesOnly [.index] [] s t

/-- R211: the three decimal digits at `I`, `I + 1`, `I + 2`, every other byte and every register unchanged; when `I + 2`
is above 4095, `MemRange` with the first address above 4095, and nothing written. -/
def Obligations.BcdStoresThreeDigits : Prop :=
  ∀ (s : State) (x : Reg), s.mem.wf →
    (s.i.toNat + 2 ≤ 4095 →
      completes (.ldB x) s fun t =>
        (t.readByte s.i.toNat).toNat = (s.reg x).toNat / 100 ∧
        (t.readByte (s.i.toNat + 1)).toNat = (s.reg x).toNat / 10 % 10 ∧
        (t.readByte (s.i.toNat + 2)).toNat = (s.reg x).toNat % 10 ∧
        (∀ a, a < s.i.toNat ∨ s.i.toNat + 3 ≤ a → t.readByte a = s.readByte a) ∧
        t.pc = s.pc + 2 ∧ changesOnly [.mem] [] s t) ∧
    (4095 < s.i.toNat + 2 →
      completes (.ldB x) s fun t =>
        faultEntry s t .memRange (some (BitVec.ofNat 16 (0xF033 + 0x100 * x.val)))
          (some (if 4095 < s.i.toNat then s.i.toNat else 4096)))

/-- `LD [I], Vx` in range: byte `I + k` is `V[k]` for each `k` up to `x`, every other byte and every register unchanged,
`I` too (the spec's decision D10). -/
def Obligations.RegisterDumpStoresUpToX : Prop :=
  ∀ (s : State) (x : Reg), s.mem.wf → s.i.toNat + x.val ≤ 4095 →
    completes (.ldMemVx x) s fun t =>
      (∀ k : Reg, k.val ≤ x.val → t.readByte (s.i.toNat + k.val) = s.reg k) ∧
      (∀ a, a < s.i.toNat ∨ s.i.toNat + x.val < a → t.readByte a = s.readByte a) ∧
      t.pc = s.pc + 2 ∧ changesOnly [.mem] [] s t

/-- `LD Vx, [I]` in range: `V[k]` is byte `I + k` for each `k` up to `x`, every other register and everything else
unchanged, `I` too (the spec's decision D10). -/
def Obligations.RegisterLoadReadsUpToX : Prop :=
  ∀ (s : State) (x : Reg), s.i.toNat + x.val ≤ 4095 →
    completes (.ldVxMem x) s fun t =>
      (∀ k : Reg, k.val ≤ x.val → t.reg k = s.readByte (s.i.toNat + k.val)) ∧
      (∀ k : Reg, x.val < k.val → t.reg k = s.reg k) ∧
      t.pc = s.pc + 2 ∧ changesOnly [] (List.finRange 16) s t

/-- A dump and a later load from the same `I` and the same bytes bring `V[0]` to `V[x]` back. -/
def Obligations.LoadAfterDumpRestoresRegisters : Prop :=
  ∀ (s : State) (x : Reg), s.mem.wf → s.i.toNat + x.val ≤ 4095 →
    completes (.ldMemVx x) s fun t =>
      ∀ u : State, u.i = t.i → (∀ a, u.readByte a = t.readByte a) →
        completes (.ldVxMem x) u fun w => ∀ k : Reg, k.val ≤ x.val → w.reg k = s.reg k

/-- A data access that leaves `MEM` raises `MemRange` with the lowest address above 4095, before anything is written (the
spec's decisions D6, D19 and D24); for `DRW`, with at least one row. -/
def Obligations.DataRangeFaultsWriteNothing : Prop :=
  ∀ (s : State) (x y : Reg) (n : Fin 16),
    (n.val ≠ 0 → 4095 < s.i.toNat + (n.val - 1) →
      completes (.drw x y n) s fun t =>
        faultEntry s t .memRange (some (BitVec.ofNat 16 (0xD000 + 0x100 * x.val + 0x10 * y.val + n.val)))
          (some (if 4095 < s.i.toNat then s.i.toNat else 4096))) ∧
    (4095 < s.i.toNat + x.val →
      (completes (.ldMemVx x) s fun t =>
        faultEntry s t .memRange (some (BitVec.ofNat 16 (0xF055 + 0x100 * x.val)))
          (some (if 4095 < s.i.toNat then s.i.toNat else 4096))) ∧
      completes (.ldVxMem x) s fun t =>
        faultEntry s t .memRange (some (BitVec.ofNat 16 (0xF065 + 0x100 * x.val)))
          (some (if 4095 < s.i.toNat then s.i.toNat else 4096)))

/-- A word stored over the next instruction is what the next fetch reads (the spec's decision D28). -/
def Obligations.StoredWordIsFetchedNext : Prop :=
  ∀ (s : State) (x j k : Reg), s.mem.wf → s.i.toNat + x.val ≤ 4095 → k.val = j.val + 1 → k.val ≤ x.val →
    s.i.toNat + j.val = s.pc.toNat + 2 →
    completes (.ldMemVx x) s fun t => t.fetch = some (wordOfBytes (s.reg j) (s.reg k))

/-! ### Whole-machine rules -/

/-- R227: a transition into `FAULT` writes `STATUS` and `ERR` alone, and `ERR.pc` is the fetch address, which `pc` still
is; the schedule, the model's own port, has given the turn (log entry 1). -/
def Obligations.FaultEntryWritesStatusAndRecordOnly : Prop :=
  ∀ s t : State, step s = .next t → t.status = .fault →
    ∃ kind opcode addr, faultEntry s.afterAgent t kind opcode addr ∧ t.pc = s.pc

/-- The record of each fatal condition by the table of R220: what caused it, the word (absent for a fetch), the address.
The record's layout is the spec's decision D19 (log entry 10). -/
def Obligations.FaultRecordsFollowTheTable : Prop :=
  ∀ (s t : State) (e : ErrorRecord), step s = .next t → t.status = .fault → t.err = some e →
    e.pc = s.pc ∧
    match e.kind with
    | .unrecognizedOpcode => ∃ op, s.fetch = some op ∧ classify op = none ∧ e.opcode = some op ∧ e.addr = none
    | .stackOverflow =>
      ∃ op nnn, s.fetch = some op ∧ classify op = some (.call nnn) ∧ s.sp.val = 15 ∧ e.opcode = some op ∧ e.addr = none
    | .stackUnderflow => s.fetch = some 0x00EE#16 ∧ s.sp.val = 0 ∧ e.opcode = some 0x00EE#16 ∧ e.addr = none
    | .memRange =>
      (s.fetch = none ∧ e.opcode = none ∧ e.addr = some s.pc.toNat) ∨
      ∃ op i, s.fetch = some op ∧ classify op = some i ∧ e.opcode = some op ∧
        ((∃ x y n, i = .drw x y n) ∨ (∃ x, i = .ldB x) ∨ (∃ x, i = .ldMemVx x) ∨ ∃ x, i = .ldVxMem x) ∧
        e.addr = some (if 4095 < s.i.toNat then s.i.toNat else 4096)

/-- Every instruction writes only what R23 and R35 give it: each part of the state is changed by its own instructions
alone, each general register by those that name it; and when it raises, `STATUS` and `ERR` alone. -/
def Obligations.EveryInstructionWritesOnlyItsOwn : Prop :=
  ∀ (i : Instr) (s t : State), s.status = .running → exec i s = .next t →
    (t.status ≠ .fault → changesOnly (mayChange i) (mayWriteRegs i) s t) ∧
    (t.status = .fault → changesOnly [.status, .err] [] s t ∧ t.pc = s.pc)

/-- Every instruction that does not own `pc` (R105) ends at `a + 2`, or raises with `pc` still `a`. -/
def Obligations.OtherInstructionsAdvanceByTwo : Prop :=
  ∀ (i : Instr) (s t : State), ownsPc i = false → s.status = .running → exec i s = .next t →
    (t.status = .running ∧ t.pc = s.pc + 2) ∨ (t.status = .fault ∧ t.pc = s.pc)

/-- Every transition of either agent keeps the invariant of reachable states. -/
def Obligations.StepKeepsTheInvariant : Prop :=
  ∀ s t : State, s.Inv → step s = .next t → t.Inv

/-- The reset state, and what the reset port makes of any state, meet the invariant. -/
def Obligations.ResetMeetsTheInvariant : Prop :=
  State.reset.Inv ∧ ∀ (s t : State) (rom font : List Byte), s.applyReset rom font = some t → t.Inv

/-- R260 and R39: what `Reset(ROM, FONT)` leaves, from any state, for every image that fits and every font of 80 bytes. -/
def Obligations.ResetEstablishesTheImage : Prop :=
  ∀ (s : State) (rom font : List Byte), rom.length ≤ 3584 → font.length = 80 →
    ∃ t, s.applyReset rom font = some t ∧
      (∀ k, t.reg k = 0) ∧ t.i = 0 ∧ t.pc = 0x200 ∧ t.sp = 0 ∧ (∀ k, t.slot k = 0) ∧ t.dt = 0 ∧ t.st = 0 ∧
      (∀ a, a < 80 → some (t.readByte a) = font[a]?) ∧
      (∀ a, 80 ≤ a → a < 0x200 → t.readByte a = 0) ∧
      (∀ k, k < rom.length → some (t.readByte (0x200 + k)) = rom[k]?) ∧
      (∀ a, 0x200 + rom.length ≤ a → a ≤ 4095 → t.readByte a = 0) ∧
      (∀ r c, t.pixel r c = false) ∧ t.status = .running ∧ t.err = none

/-! ### Executions and fairness (spec/60_exceptions.md rules R233 and R234) -/

/-- R233: the runs that `step` makes are the runs under the schedules the outside may choose. The schedule script and the
free agent are the model's own form of that choice (log entry 1): every run of `step` has a schedule, and every beginning
of every schedule is a script that `step` follows, up to what is left of the script. -/
def Obligations.RunsOfStepAreTheRunsUnderSchedules : Prop :=
  ∀ s : State,
    (∃ sched : Schedule, ∀ n, (State.stepped^[n] s).withSchedule [] = (runUnder sched s n).withSchedule []) ∧
    ∀ (sched : Schedule) (n : Nat),
      (State.stepped^[n] (s.withSchedule ((List.range n).map sched))).withSchedule [] =
        (runUnder sched s n).withSchedule []

/-- Under weak fairness a delay timer that no instruction sets reaches 0 and stays there, unless the run ends. -/
def Obligations.FairSchedulesRunTheDelayTimerOut : Prop :=
  ∀ (sched : Schedule) (s : State), weaklyFair sched s →
    (∀ n x, (runUnder sched s n).fetch ≠ some (encode (.ldDtVx x))) →
    ∃ n, (runUnder sched s n).status ≠ .running ∨ ∀ m, n ≤ m → (runUnder sched s m).dt = 0

/-- R234, "A loop that waits for `DT` to reach 0 terminates under this assumption and under no weaker one": the polling
loop, wherever it stands and whatever else the state holds, is left for the instruction behind it with `DT = 0` under
every weakly fair schedule; with the timer agent postponed for ever it is never left once `DT` is not 0, and with the
instruction agent postponed for ever it never moves. The three words are the spec's general knowledge G1 (log entry 11). -/
def Obligations.DelayLoopEndsUnderFairnessOnly : Prop :=
  ∀ (sched : Schedule) (s : State) (nnn : Addr12) (x : Reg),
    s.status = .running → s.pollsDelayTimerAt nnn x → s.pc.toNat = nnn.toNat →
    (weaklyFair sched s →
      ∃ n, (runUnder sched s n).pc.toNat = nnn.toNat + 6 ∧ (runUnder sched s n).status = .running ∧
        (runUnder sched s n).dt = 0) ∧
    ((∀ n, sched n = .instruction) → s.dt ≠ 0 → ∀ n, (runUnder sched s n).pc.toNat < nnn.toNat + 6) ∧
    ((∀ n, sched n = .timer) → ∀ n, (runUnder sched s n).pc = s.pc)

/-- R234, "A program that never looks at `DT` behaves the same under every interleaving": two runs from one state that
have taken the same number of instruction turns are alike but for the timers and the model's own count of turns, if the
first of them fetched no `LD Vx, DT`. -/
def Obligations.TimerBlindRunsIgnoreTheInterleaving : Prop :=
  ∀ (sched sched' : Schedule) (s : State) (n n' : Nat),
    instructionTurns sched n = instructionTurns sched' n' →
    (∀ k, k < n → ∀ x, (runUnder sched s k).fetch ≠ some (encode (.ldVxDt x))) →
    sameButTimers (runUnder sched s n) (runUnder sched' s n')
end

