-- ==== Sys2Proof/Laws/State.lean ====
section
/-! SUPPORT. One lemma per field per update of the state, so that no proof unfolds a record update; then what the
accessors read after an update. -/

namespace Sys2Proof.Machine

/-! ### Updates of one field -/

/-! `State.setReg` -/

@[simp] theorem State.setReg_v (s : State) (r : Reg) (x : Byte) : (s.setReg r x).v = s.v.set r.val x := rfl
@[simp] theorem State.setReg_i (s : State) (r : Reg) (x : Byte) : (s.setReg r x).i = s.i := rfl
@[simp] theorem State.setReg_pc (s : State) (r : Reg) (x : Byte) : (s.setReg r x).pc = s.pc := rfl
@[simp] theorem State.setReg_sp (s : State) (r : Reg) (x : Byte) : (s.setReg r x).sp = s.sp := rfl
@[simp] theorem State.setReg_stack (s : State) (r : Reg) (x : Byte) : (s.setReg r x).stack = s.stack := rfl
@[simp] theorem State.setReg_dt (s : State) (r : Reg) (x : Byte) : (s.setReg r x).dt = s.dt := rfl
@[simp] theorem State.setReg_st (s : State) (r : Reg) (x : Byte) : (s.setReg r x).st = s.st := rfl
@[simp] theorem State.setReg_mem (s : State) (r : Reg) (x : Byte) : (s.setReg r x).mem = s.mem := rfl
@[simp] theorem State.setReg_fb (s : State) (r : Reg) (x : Byte) : (s.setReg r x).fb = s.fb := rfl
@[simp] theorem State.setReg_status (s : State) (r : Reg) (x : Byte) : (s.setReg r x).status = s.status := rfl
@[simp] theorem State.setReg_err (s : State) (r : Reg) (x : Byte) : (s.setReg r x).err = s.err := rfl
@[simp] theorem State.setReg_inputs (s : State) (r : Reg) (x : Byte) : (s.setReg r x).inputs = s.inputs := rfl

/-! `State.setSlot` -/

@[simp] theorem State.setSlot_v (s : State) (k : Fin 16) (w : Word) : (s.setSlot k w).v = s.v := rfl
@[simp] theorem State.setSlot_i (s : State) (k : Fin 16) (w : Word) : (s.setSlot k w).i = s.i := rfl
@[simp] theorem State.setSlot_pc (s : State) (k : Fin 16) (w : Word) : (s.setSlot k w).pc = s.pc := rfl
@[simp] theorem State.setSlot_sp (s : State) (k : Fin 16) (w : Word) : (s.setSlot k w).sp = s.sp := rfl
@[simp] theorem State.setSlot_stack (s : State) (k : Fin 16) (w : Word) : (s.setSlot k w).stack = s.stack.set k.val w := rfl
@[simp] theorem State.setSlot_dt (s : State) (k : Fin 16) (w : Word) : (s.setSlot k w).dt = s.dt := rfl
@[simp] theorem State.setSlot_st (s : State) (k : Fin 16) (w : Word) : (s.setSlot k w).st = s.st := rfl
@[simp] theorem State.setSlot_mem (s : State) (k : Fin 16) (w : Word) : (s.setSlot k w).mem = s.mem := rfl
@[simp] theorem State.setSlot_fb (s : State) (k : Fin 16) (w : Word) : (s.setSlot k w).fb = s.fb := rfl
@[simp] theorem State.setSlot_status (s : State) (k : Fin 16) (w : Word) : (s.setSlot k w).status = s.status := rfl
@[simp] theorem State.setSlot_err (s : State) (k : Fin 16) (w : Word) : (s.setSlot k w).err = s.err := rfl
@[simp] theorem State.setSlot_inputs (s : State) (k : Fin 16) (w : Word) : (s.setSlot k w).inputs = s.inputs := rfl

/-! `State.setI` -/

@[simp] theorem State.setI_v (s : State) (w : Word) : (s.setI w).v = s.v := rfl
@[simp] theorem State.setI_i (s : State) (w : Word) : (s.setI w).i = w := rfl
@[simp] theorem State.setI_pc (s : State) (w : Word) : (s.setI w).pc = s.pc := rfl
@[simp] theorem State.setI_sp (s : State) (w : Word) : (s.setI w).sp = s.sp := rfl
@[simp] theorem State.setI_stack (s : State) (w : Word) : (s.setI w).stack = s.stack := rfl
@[simp] theorem State.setI_dt (s : State) (w : Word) : (s.setI w).dt = s.dt := rfl
@[simp] theorem State.setI_st (s : State) (w : Word) : (s.setI w).st = s.st := rfl
@[simp] theorem State.setI_mem (s : State) (w : Word) : (s.setI w).mem = s.mem := rfl
@[simp] theorem State.setI_fb (s : State) (w : Word) : (s.setI w).fb = s.fb := rfl
@[simp] theorem State.setI_status (s : State) (w : Word) : (s.setI w).status = s.status := rfl
@[simp] theorem State.setI_err (s : State) (w : Word) : (s.setI w).err = s.err := rfl
@[simp] theorem State.setI_inputs (s : State) (w : Word) : (s.setI w).inputs = s.inputs := rfl

/-! `State.setPc` -/

@[simp] theorem State.setPc_v (s : State) (w : Word) : (s.setPc w).v = s.v := rfl
@[simp] theorem State.setPc_i (s : State) (w : Word) : (s.setPc w).i = s.i := rfl
@[simp] theorem State.setPc_pc (s : State) (w : Word) : (s.setPc w).pc = w := rfl
@[simp] theorem State.setPc_sp (s : State) (w : Word) : (s.setPc w).sp = s.sp := rfl
@[simp] theorem State.setPc_stack (s : State) (w : Word) : (s.setPc w).stack = s.stack := rfl
@[simp] theorem State.setPc_dt (s : State) (w : Word) : (s.setPc w).dt = s.dt := rfl
@[simp] theorem State.setPc_st (s : State) (w : Word) : (s.setPc w).st = s.st := rfl
@[simp] theorem State.setPc_mem (s : State) (w : Word) : (s.setPc w).mem = s.mem := rfl
@[simp] theorem State.setPc_fb (s : State) (w : Word) : (s.setPc w).fb = s.fb := rfl
@[simp] theorem State.setPc_status (s : State) (w : Word) : (s.setPc w).status = s.status := rfl
@[simp] theorem State.setPc_err (s : State) (w : Word) : (s.setPc w).err = s.err := rfl
@[simp] theorem State.setPc_inputs (s : State) (w : Word) : (s.setPc w).inputs = s.inputs := rfl

/-! `State.setSp` -/

@[simp] theorem State.setSp_v (s : State) (k : Fin 16) : (s.setSp k).v = s.v := rfl
@[simp] theorem State.setSp_i (s : State) (k : Fin 16) : (s.setSp k).i = s.i := rfl
@[simp] theorem State.setSp_pc (s : State) (k : Fin 16) : (s.setSp k).pc = s.pc := rfl
@[simp] theorem State.setSp_sp (s : State) (k : Fin 16) : (s.setSp k).sp = k := rfl
@[simp] theorem State.setSp_stack (s : State) (k : Fin 16) : (s.setSp k).stack = s.stack := rfl
@[simp] theorem State.setSp_dt (s : State) (k : Fin 16) : (s.setSp k).dt = s.dt := rfl
@[simp] theorem State.setSp_st (s : State) (k : Fin 16) : (s.setSp k).st = s.st := rfl
@[simp] theorem State.setSp_mem (s : State) (k : Fin 16) : (s.setSp k).mem = s.mem := rfl
@[simp] theorem State.setSp_fb (s : State) (k : Fin 16) : (s.setSp k).fb = s.fb := rfl
@[simp] theorem State.setSp_status (s : State) (k : Fin 16) : (s.setSp k).status = s.status := rfl
@[simp] theorem State.setSp_err (s : State) (k : Fin 16) : (s.setSp k).err = s.err := rfl
@[simp] theorem State.setSp_inputs (s : State) (k : Fin 16) : (s.setSp k).inputs = s.inputs := rfl

/-! `State.setDt` -/

@[simp] theorem State.setDt_v (s : State) (x : Byte) : (s.setDt x).v = s.v := rfl
@[simp] theorem State.setDt_i (s : State) (x : Byte) : (s.setDt x).i = s.i := rfl
@[simp] theorem State.setDt_pc (s : State) (x : Byte) : (s.setDt x).pc = s.pc := rfl
@[simp] theorem State.setDt_sp (s : State) (x : Byte) : (s.setDt x).sp = s.sp := rfl
@[simp] theorem State.setDt_stack (s : State) (x : Byte) : (s.setDt x).stack = s.stack := rfl
@[simp] theorem State.setDt_dt (s : State) (x : Byte) : (s.setDt x).dt = x := rfl
@[simp] theorem State.setDt_st (s : State) (x : Byte) : (s.setDt x).st = s.st := rfl
@[simp] theorem State.setDt_mem (s : State) (x : Byte) : (s.setDt x).mem = s.mem := rfl
@[simp] theorem State.setDt_fb (s : State) (x : Byte) : (s.setDt x).fb = s.fb := rfl
@[simp] theorem State.setDt_status (s : State) (x : Byte) : (s.setDt x).status = s.status := rfl
@[simp] theorem State.setDt_err (s : State) (x : Byte) : (s.setDt x).err = s.err := rfl
@[simp] theorem State.setDt_inputs (s : State) (x : Byte) : (s.setDt x).inputs = s.inputs := rfl

/-! `State.setSt` -/

@[simp] theorem State.setSt_v (s : State) (x : Byte) : (s.setSt x).v = s.v := rfl
@[simp] theorem State.setSt_i (s : State) (x : Byte) : (s.setSt x).i = s.i := rfl
@[simp] theorem State.setSt_pc (s : State) (x : Byte) : (s.setSt x).pc = s.pc := rfl
@[simp] theorem State.setSt_sp (s : State) (x : Byte) : (s.setSt x).sp = s.sp := rfl
@[simp] theorem State.setSt_stack (s : State) (x : Byte) : (s.setSt x).stack = s.stack := rfl
@[simp] theorem State.setSt_dt (s : State) (x : Byte) : (s.setSt x).dt = s.dt := rfl
@[simp] theorem State.setSt_st (s : State) (x : Byte) : (s.setSt x).st = x := rfl
@[simp] theorem State.setSt_mem (s : State) (x : Byte) : (s.setSt x).mem = s.mem := rfl
@[simp] theorem State.setSt_fb (s : State) (x : Byte) : (s.setSt x).fb = s.fb := rfl
@[simp] theorem State.setSt_status (s : State) (x : Byte) : (s.setSt x).status = s.status := rfl
@[simp] theorem State.setSt_err (s : State) (x : Byte) : (s.setSt x).err = s.err := rfl
@[simp] theorem State.setSt_inputs (s : State) (x : Byte) : (s.setSt x).inputs = s.inputs := rfl

/-! `State.setMem` -/

@[simp] theorem State.setMem_v (s : State) (m : Memory) : (s.setMem m).v = s.v := rfl
@[simp] theorem State.setMem_i (s : State) (m : Memory) : (s.setMem m).i = s.i := rfl
@[simp] theorem State.setMem_pc (s : State) (m : Memory) : (s.setMem m).pc = s.pc := rfl
@[simp] theorem State.setMem_sp (s : State) (m : Memory) : (s.setMem m).sp = s.sp := rfl
@[simp] theorem State.setMem_stack (s : State) (m : Memory) : (s.setMem m).stack = s.stack := rfl
@[simp] theorem State.setMem_dt (s : State) (m : Memory) : (s.setMem m).dt = s.dt := rfl
@[simp] theorem State.setMem_st (s : State) (m : Memory) : (s.setMem m).st = s.st := rfl
@[simp] theorem State.setMem_mem (s : State) (m : Memory) : (s.setMem m).mem = m := rfl
@[simp] theorem State.setMem_fb (s : State) (m : Memory) : (s.setMem m).fb = s.fb := rfl
@[simp] theorem State.setMem_status (s : State) (m : Memory) : (s.setMem m).status = s.status := rfl
@[simp] theorem State.setMem_err (s : State) (m : Memory) : (s.setMem m).err = s.err := rfl
@[simp] theorem State.setMem_inputs (s : State) (m : Memory) : (s.setMem m).inputs = s.inputs := rfl

/-! `State.setFb` -/

@[simp] theorem State.setFb_v (s : State) (f : Framebuffer) : (s.setFb f).v = s.v := rfl
@[simp] theorem State.setFb_i (s : State) (f : Framebuffer) : (s.setFb f).i = s.i := rfl
@[simp] theorem State.setFb_pc (s : State) (f : Framebuffer) : (s.setFb f).pc = s.pc := rfl
@[simp] theorem State.setFb_sp (s : State) (f : Framebuffer) : (s.setFb f).sp = s.sp := rfl
@[simp] theorem State.setFb_stack (s : State) (f : Framebuffer) : (s.setFb f).stack = s.stack := rfl
@[simp] theorem State.setFb_dt (s : State) (f : Framebuffer) : (s.setFb f).dt = s.dt := rfl
@[simp] theorem State.setFb_st (s : State) (f : Framebuffer) : (s.setFb f).st = s.st := rfl
@[simp] theorem State.setFb_mem (s : State) (f : Framebuffer) : (s.setFb f).mem = s.mem := rfl
@[simp] theorem State.setFb_fb (s : State) (f : Framebuffer) : (s.setFb f).fb = f := rfl
@[simp] theorem State.setFb_status (s : State) (f : Framebuffer) : (s.setFb f).status = s.status := rfl
@[simp] theorem State.setFb_err (s : State) (f : Framebuffer) : (s.setFb f).err = s.err := rfl
@[simp] theorem State.setFb_inputs (s : State) (f : Framebuffer) : (s.setFb f).inputs = s.inputs := rfl

/-! `State.setStatus` -/

@[simp] theorem State.setStatus_v (s : State) (x : Status) : (s.setStatus x).v = s.v := rfl
@[simp] theorem State.setStatus_i (s : State) (x : Status) : (s.setStatus x).i = s.i := rfl
@[simp] theorem State.setStatus_pc (s : State) (x : Status) : (s.setStatus x).pc = s.pc := rfl
@[simp] theorem State.setStatus_sp (s : State) (x : Status) : (s.setStatus x).sp = s.sp := rfl
@[simp] theorem State.setStatus_stack (s : State) (x : Status) : (s.setStatus x).stack = s.stack := rfl
@[simp] theorem State.setStatus_dt (s : State) (x : Status) : (s.setStatus x).dt = s.dt := rfl
@[simp] theorem State.setStatus_st (s : State) (x : Status) : (s.setStatus x).st = s.st := rfl
@[simp] theorem State.setStatus_mem (s : State) (x : Status) : (s.setStatus x).mem = s.mem := rfl
@[simp] theorem State.setStatus_fb (s : State) (x : Status) : (s.setStatus x).fb = s.fb := rfl
@[simp] theorem State.setStatus_status (s : State) (x : Status) : (s.setStatus x).status = x := rfl
@[simp] theorem State.setStatus_err (s : State) (x : Status) : (s.setStatus x).err = s.err := rfl
@[simp] theorem State.setStatus_inputs (s : State) (x : Status) : (s.setStatus x).inputs = s.inputs := rfl

/-! `State.setErr` -/

@[simp] theorem State.setErr_v (s : State) (e : Option ErrorRecord) : (s.setErr e).v = s.v := rfl
@[simp] theorem State.setErr_i (s : State) (e : Option ErrorRecord) : (s.setErr e).i = s.i := rfl
@[simp] theorem State.setErr_pc (s : State) (e : Option ErrorRecord) : (s.setErr e).pc = s.pc := rfl
@[simp] theorem State.setErr_sp (s : State) (e : Option ErrorRecord) : (s.setErr e).sp = s.sp := rfl
@[simp] theorem State.setErr_stack (s : State) (e : Option ErrorRecord) : (s.setErr e).stack = s.stack := rfl
@[simp] theorem State.setErr_dt (s : State) (e : Option ErrorRecord) : (s.setErr e).dt = s.dt := rfl
@[simp] theorem State.setErr_st (s : State) (e : Option ErrorRecord) : (s.setErr e).st = s.st := rfl
@[simp] theorem State.setErr_mem (s : State) (e : Option ErrorRecord) : (s.setErr e).mem = s.mem := rfl
@[simp] theorem State.setErr_fb (s : State) (e : Option ErrorRecord) : (s.setErr e).fb = s.fb := rfl
@[simp] theorem State.setErr_status (s : State) (e : Option ErrorRecord) : (s.setErr e).status = s.status := rfl
@[simp] theorem State.setErr_err (s : State) (e : Option ErrorRecord) : (s.setErr e).err = e := rfl
@[simp] theorem State.setErr_inputs (s : State) (e : Option ErrorRecord) : (s.setErr e).inputs = s.inputs := rfl

/-! `State.setInputs` -/

@[simp] theorem State.setInputs_v (s : State) (n : Inputs) : (s.setInputs n).v = s.v := rfl
@[simp] theorem State.setInputs_i (s : State) (n : Inputs) : (s.setInputs n).i = s.i := rfl
@[simp] theorem State.setInputs_pc (s : State) (n : Inputs) : (s.setInputs n).pc = s.pc := rfl
@[simp] theorem State.setInputs_sp (s : State) (n : Inputs) : (s.setInputs n).sp = s.sp := rfl
@[simp] theorem State.setInputs_stack (s : State) (n : Inputs) : (s.setInputs n).stack = s.stack := rfl
@[simp] theorem State.setInputs_dt (s : State) (n : Inputs) : (s.setInputs n).dt = s.dt := rfl
@[simp] theorem State.setInputs_st (s : State) (n : Inputs) : (s.setInputs n).st = s.st := rfl
@[simp] theorem State.setInputs_mem (s : State) (n : Inputs) : (s.setInputs n).mem = s.mem := rfl
@[simp] theorem State.setInputs_fb (s : State) (n : Inputs) : (s.setInputs n).fb = s.fb := rfl
@[simp] theorem State.setInputs_status (s : State) (n : Inputs) : (s.setInputs n).status = s.status := rfl
@[simp] theorem State.setInputs_err (s : State) (n : Inputs) : (s.setInputs n).err = s.err := rfl
@[simp] theorem State.setInputs_inputs (s : State) (n : Inputs) : (s.setInputs n).inputs = n := rfl

/-! ### Shared operations made of them -/

/-! `State.advance` -/

@[simp] theorem State.advance_v (s : State) : (s.advance).v = s.v := rfl
@[simp] theorem State.advance_i (s : State) : (s.advance).i = s.i := rfl
@[simp] theorem State.advance_pc (s : State) : (s.advance).pc = s.pc + 2 := rfl
@[simp] theorem State.advance_sp (s : State) : (s.advance).sp = s.sp := rfl
@[simp] theorem State.advance_stack (s : State) : (s.advance).stack = s.stack := rfl
@[simp] theorem State.advance_dt (s : State) : (s.advance).dt = s.dt := rfl
@[simp] theorem State.advance_st (s : State) : (s.advance).st = s.st := rfl
@[simp] theorem State.advance_mem (s : State) : (s.advance).mem = s.mem := rfl
@[simp] theorem State.advance_fb (s : State) : (s.advance).fb = s.fb := rfl
@[simp] theorem State.advance_status (s : State) : (s.advance).status = s.status := rfl
@[simp] theorem State.advance_err (s : State) : (s.advance).err = s.err := rfl
@[simp] theorem State.advance_inputs (s : State) : (s.advance).inputs = s.inputs := rfl

/-! `State.skipIf` -/

@[simp] theorem State.skipIf_v (s : State) (c : Bool) : (s.skipIf c).v = s.v := rfl
@[simp] theorem State.skipIf_i (s : State) (c : Bool) : (s.skipIf c).i = s.i := rfl
@[simp] theorem State.skipIf_pc (s : State) (c : Bool) : (s.skipIf c).pc = if c then s.pc + 4 else s.pc + 2 := rfl
@[simp] theorem State.skipIf_sp (s : State) (c : Bool) : (s.skipIf c).sp = s.sp := rfl
@[simp] theorem State.skipIf_stack (s : State) (c : Bool) : (s.skipIf c).stack = s.stack := rfl
@[simp] theorem State.skipIf_dt (s : State) (c : Bool) : (s.skipIf c).dt = s.dt := rfl
@[simp] theorem State.skipIf_st (s : State) (c : Bool) : (s.skipIf c).st = s.st := rfl
@[simp] theorem State.skipIf_mem (s : State) (c : Bool) : (s.skipIf c).mem = s.mem := rfl
@[simp] theorem State.skipIf_fb (s : State) (c : Bool) : (s.skipIf c).fb = s.fb := rfl
@[simp] theorem State.skipIf_status (s : State) (c : Bool) : (s.skipIf c).status = s.status := rfl
@[simp] theorem State.skipIf_err (s : State) (c : Bool) : (s.skipIf c).err = s.err := rfl
@[simp] theorem State.skipIf_inputs (s : State) (c : Bool) : (s.skipIf c).inputs = s.inputs := rfl

/-! `State.halt` -/

@[simp] theorem State.halt_v (s : State) : (s.halt).v = s.v := rfl
@[simp] theorem State.halt_i (s : State) : (s.halt).i = s.i := rfl
@[simp] theorem State.halt_pc (s : State) : (s.halt).pc = s.pc := rfl
@[simp] theorem State.halt_sp (s : State) : (s.halt).sp = s.sp := rfl
@[simp] theorem State.halt_stack (s : State) : (s.halt).stack = s.stack := rfl
@[simp] theorem State.halt_dt (s : State) : (s.halt).dt = s.dt := rfl
@[simp] theorem State.halt_st (s : State) : (s.halt).st = s.st := rfl
@[simp] theorem State.halt_mem (s : State) : (s.halt).mem = s.mem := rfl
@[simp] theorem State.halt_fb (s : State) : (s.halt).fb = s.fb := rfl
@[simp] theorem State.halt_status (s : State) : (s.halt).status = .halted := rfl
@[simp] theorem State.halt_err (s : State) : (s.halt).err = s.err := rfl
@[simp] theorem State.halt_inputs (s : State) : (s.halt).inputs = s.inputs := rfl

/-! `State.raise` -/

@[simp] theorem State.raise_v (s : State) (k : FatalKind) (o : Option Word) (a : Option Nat) : (s.raise k o a).v = s.v := rfl
@[simp] theorem State.raise_i (s : State) (k : FatalKind) (o : Option Word) (a : Option Nat) : (s.raise k o a).i = s.i := rfl
@[simp] theorem State.raise_pc (s : State) (k : FatalKind) (o : Option Word) (a : Option Nat) : (s.raise k o a).pc = s.pc := rfl
@[simp] theorem State.raise_sp (s : State) (k : FatalKind) (o : Option Word) (a : Option Nat) : (s.raise k o a).sp = s.sp := rfl
@[simp] theorem State.raise_stack (s : State) (k : FatalKind) (o : Option Word) (a : Option Nat) : (s.raise k o a).stack = s.stack := rfl
@[simp] theorem State.raise_dt (s : State) (k : FatalKind) (o : Option Word) (a : Option Nat) : (s.raise k o a).dt = s.dt := rfl
@[simp] theorem State.raise_st (s : State) (k : FatalKind) (o : Option Word) (a : Option Nat) : (s.raise k o a).st = s.st := rfl
@[simp] theorem State.raise_mem (s : State) (k : FatalKind) (o : Option Word) (a : Option Nat) : (s.raise k o a).mem = s.mem := rfl
@[simp] theorem State.raise_fb (s : State) (k : FatalKind) (o : Option Word) (a : Option Nat) : (s.raise k o a).fb = s.fb := rfl
@[simp] theorem State.raise_status (s : State) (k : FatalKind) (o : Option Word) (a : Option Nat) : (s.raise k o a).status = .fault := rfl
@[simp] theorem State.raise_err (s : State) (k : FatalKind) (o : Option Word) (a : Option Nat) : (s.raise k o a).err = some { kind := k, pc := s.pc, opcode := o, addr := a } := rfl
@[simp] theorem State.raise_inputs (s : State) (k : FatalKind) (o : Option Word) (a : Option Nat) : (s.raise k o a).inputs = s.inputs := rfl

/-! `State.afterAgent` -/

@[simp] theorem State.afterAgent_v (s : State) : (s.afterAgent).v = s.v := rfl
@[simp] theorem State.afterAgent_i (s : State) : (s.afterAgent).i = s.i := rfl
@[simp] theorem State.afterAgent_pc (s : State) : (s.afterAgent).pc = s.pc := rfl
@[simp] theorem State.afterAgent_sp (s : State) : (s.afterAgent).sp = s.sp := rfl
@[simp] theorem State.afterAgent_stack (s : State) : (s.afterAgent).stack = s.stack := rfl
@[simp] theorem State.afterAgent_dt (s : State) : (s.afterAgent).dt = s.dt := rfl
@[simp] theorem State.afterAgent_st (s : State) : (s.afterAgent).st = s.st := rfl
@[simp] theorem State.afterAgent_mem (s : State) : (s.afterAgent).mem = s.mem := rfl
@[simp] theorem State.afterAgent_fb (s : State) : (s.afterAgent).fb = s.fb := rfl
@[simp] theorem State.afterAgent_status (s : State) : (s.afterAgent).status = s.status := rfl
@[simp] theorem State.afterAgent_err (s : State) : (s.afterAgent).err = s.err := rfl
@[simp] theorem State.afterAgent_inputs (s : State) : (s.afterAgent).inputs = { s.inputs with schedule := s.inputs.schedule.tail, turns := s.inputs.turns + 1 } := rfl

/-! `State.afterRand` -/

@[simp] theorem State.afterRand_v (s : State) : (s.afterRand).v = s.v := rfl
@[simp] theorem State.afterRand_i (s : State) : (s.afterRand).i = s.i := rfl
@[simp] theorem State.afterRand_pc (s : State) : (s.afterRand).pc = s.pc := rfl
@[simp] theorem State.afterRand_sp (s : State) : (s.afterRand).sp = s.sp := rfl
@[simp] theorem State.afterRand_stack (s : State) : (s.afterRand).stack = s.stack := rfl
@[simp] theorem State.afterRand_dt (s : State) : (s.afterRand).dt = s.dt := rfl
@[simp] theorem State.afterRand_st (s : State) : (s.afterRand).st = s.st := rfl
@[simp] theorem State.afterRand_mem (s : State) : (s.afterRand).mem = s.mem := rfl
@[simp] theorem State.afterRand_fb (s : State) : (s.afterRand).fb = s.fb := rfl
@[simp] theorem State.afterRand_status (s : State) : (s.afterRand).status = s.status := rfl
@[simp] theorem State.afterRand_err (s : State) : (s.afterRand).err = s.err := rfl
@[simp] theorem State.afterRand_inputs (s : State) : (s.afterRand).inputs = { s.inputs with rand := s.inputs.rand.tail, randDraws := s.inputs.randDraws + 1 } := rfl

/-! `State.afterKeys` -/

@[simp] theorem State.afterKeys_v (s : State) : (s.afterKeys).v = s.v := rfl
@[simp] theorem State.afterKeys_i (s : State) : (s.afterKeys).i = s.i := rfl
@[simp] theorem State.afterKeys_pc (s : State) : (s.afterKeys).pc = s.pc := rfl
@[simp] theorem State.afterKeys_sp (s : State) : (s.afterKeys).sp = s.sp := rfl
@[simp] theorem State.afterKeys_stack (s : State) : (s.afterKeys).stack = s.stack := rfl
@[simp] theorem State.afterKeys_dt (s : State) : (s.afterKeys).dt = s.dt := rfl
@[simp] theorem State.afterKeys_st (s : State) : (s.afterKeys).st = s.st := rfl
@[simp] theorem State.afterKeys_mem (s : State) : (s.afterKeys).mem = s.mem := rfl
@[simp] theorem State.afterKeys_fb (s : State) : (s.afterKeys).fb = s.fb := rfl
@[simp] theorem State.afterKeys_status (s : State) : (s.afterKeys).status = s.status := rfl
@[simp] theorem State.afterKeys_err (s : State) : (s.afterKeys).err = s.err := rfl
@[simp] theorem State.afterKeys_inputs (s : State) : (s.afterKeys).inputs = { s.inputs with keys := s.inputs.keys.tail, keyDraws := s.inputs.keyDraws + 1 } := rfl

/-! `State.tick` -/

@[simp] theorem State.tick_v (s : State) : (s.tick).v = s.v := rfl
@[simp] theorem State.tick_i (s : State) : (s.tick).i = s.i := rfl
@[simp] theorem State.tick_pc (s : State) : (s.tick).pc = s.pc := rfl
@[simp] theorem State.tick_sp (s : State) : (s.tick).sp = s.sp := rfl
@[simp] theorem State.tick_stack (s : State) : (s.tick).stack = s.stack := rfl
@[simp] theorem State.tick_dt (s : State) : (s.tick).dt = countDown s.dt := rfl
@[simp] theorem State.tick_st (s : State) : (s.tick).st = countDown s.st := rfl
@[simp] theorem State.tick_mem (s : State) : (s.tick).mem = s.mem := rfl
@[simp] theorem State.tick_fb (s : State) : (s.tick).fb = s.fb := rfl
@[simp] theorem State.tick_status (s : State) : (s.tick).status = s.status := rfl
@[simp] theorem State.tick_err (s : State) : (s.tick).err = s.err := rfl
@[simp] theorem State.tick_inputs (s : State) : (s.tick).inputs = s.inputs := rfl

/-! `State.writeWithFlag` -/

@[simp] theorem State.writeWithFlag_v (s : State) (x : Reg) (a f : Byte) : (s.writeWithFlag x a f).v = (s.v.set x.val a).set vf.val f := rfl
@[simp] theorem State.writeWithFlag_i (s : State) (x : Reg) (a f : Byte) : (s.writeWithFlag x a f).i = s.i := rfl
@[simp] theorem State.writeWithFlag_pc (s : State) (x : Reg) (a f : Byte) : (s.writeWithFlag x a f).pc = s.pc + 2 := rfl
@[simp] theorem State.writeWithFlag_sp (s : State) (x : Reg) (a f : Byte) : (s.writeWithFlag x a f).sp = s.sp := rfl
@[simp] theorem State.writeWithFlag_stack (s : State) (x : Reg) (a f : Byte) : (s.writeWithFlag x a f).stack = s.stack := rfl
@[simp] theorem State.writeWithFlag_dt (s : State) (x : Reg) (a f : Byte) : (s.writeWithFlag x a f).dt = s.dt := rfl
@[simp] theorem State.writeWithFlag_st (s : State) (x : Reg) (a f : Byte) : (s.writeWithFlag x a f).st = s.st := rfl
@[simp] theorem State.writeWithFlag_mem (s : State) (x : Reg) (a f : Byte) : (s.writeWithFlag x a f).mem = s.mem := rfl
@[simp] theorem State.writeWithFlag_fb (s : State) (x : Reg) (a f : Byte) : (s.writeWithFlag x a f).fb = s.fb := rfl
@[simp] theorem State.writeWithFlag_status (s : State) (x : Reg) (a f : Byte) : (s.writeWithFlag x a f).status = s.status := rfl
@[simp] theorem State.writeWithFlag_err (s : State) (x : Reg) (a f : Byte) : (s.writeWithFlag x a f).err = s.err := rfl
@[simp] theorem State.writeWithFlag_inputs (s : State) (x : Reg) (a f : Byte) : (s.writeWithFlag x a f).inputs = s.inputs := rfl

/-! ### Registers, stack slots, bytes and pixels after an update -/

theorem State.reg_setReg (s : State) (q r : Reg) (x : Byte) :
    (s.setReg q x).reg r = if q = r then x else s.reg r := by
  simp [State.reg, State.setReg, Vector.getElem_set, Fin.ext_iff]

@[simp] theorem State.reg_setReg_same (s : State) (r : Reg) (x : Byte) : (s.setReg r x).reg r = x := by
  simp [State.reg_setReg]

theorem State.reg_setReg_other (s : State) (q r : Reg) (x : Byte) (h : q ≠ r) : (s.setReg q x).reg r = s.reg r := by
  simp [State.reg_setReg, h]

theorem State.slot_setSlot (s : State) (j k : Fin 16) (w : Word) :
    (s.setSlot j w).slot k = if j = k then w else s.slot k := by
  simp [State.slot, State.setSlot, Vector.getElem_set, Fin.ext_iff]

/-- The registers after a flag-writing instruction: the flag wins where the destination is `VF` (R150 law 4). -/
theorem State.reg_writeWithFlag (s : State) (x r : Reg) (a f : Byte) :
    (s.writeWithFlag x a f).reg r = if vf = r then f else if x = r then a else s.reg r := by
  simp only [State.writeWithFlag, State.advance]
  show ((s.setReg x a).setReg vf f).reg r = _
  rw [State.reg_setReg, State.reg_setReg]

/-- Two states with the same register vector have the same registers. -/
theorem State.reg_congr {s t : State} (h : t.v = s.v) (r : Reg) : t.reg r = s.reg r := by
  simp [State.reg, h]

theorem State.slot_congr {s t : State} (h : t.stack = s.stack) (k : Fin 16) : t.slot k = s.slot k := by
  simp [State.slot, h]

theorem State.readByte_congr {s t : State} (h : t.mem = s.mem) (a : Nat) : t.readByte a = s.readByte a := by
  simp [State.readByte, h]

theorem State.pixel_congr {s t : State} (h : t.fb = s.fb) (r : Fin 32) (c : Fin 64) : t.pixel r c = s.pixel r c := by
  simp [State.pixel, h]

/-- A flag value is exactly 0 or 1 (R150 law 5). -/
theorem flagByte_cases (b : Bool) : flagByte b = 0 ∨ flagByte b = 1 := by cases b <;> simp [flagByte]

theorem flagByte_eq_one (b : Bool) : flagByte b = 1 ↔ b = true := by cases b <;> simp [flagByte]

end Sys2Proof.Machine
end

