-- ==== Sys2Proof/Laws/Memory.lean ====
section
/-! SUPPORT. What the memory operations do: read after write, the canonical form, multi-byte transfers, and the range
check in closed form. -/

namespace Sys2Proof.Machine

@[simp] theorem Memory.read_nil (a : Nat) : Memory.read [] a = background a := rfl

@[simp] theorem Memory.read_cons (b : Nat) (x : Byte) (m : Memory) (a : Nat) :
    Memory.read ((b, x) :: m) a = if a = b then x else m.read a := rfl

/-- An address below every listed one reads as the reset image. -/
theorem Memory.read_of_forall_lt : ∀ (m : Memory) (a : Nat), (∀ p ∈ m, a < p.1) → m.read a = background a
  | [], _, _ => rfl
  | (b, x) :: m, a, h => by
    have hb : a < b := h (b, x) (by simp)
    rw [Memory.read_cons, if_neg (by omega)]
    exact Memory.read_of_forall_lt m a (fun p hp => h p (by simp [hp]))

theorem Memory.wf_nil : Memory.wf [] := by simp [Memory.wf]

theorem Memory.wf_cons {b : Nat} {x : Byte} {m : Memory} :
    Memory.wf ((b, x) :: m) ↔ (∀ p ∈ m, b < p.1) ∧ b < Config.memSize ∧ x ≠ background b ∧ m.wf := by
  simp only [Memory.wf, List.pairwise_cons, List.mem_cons, forall_eq_or_imp]
  tauto

theorem Memory.read_consCell (m : Memory) (a b : Nat) (x : Byte) (h : ∀ p ∈ m, a < p.1) :
    (Memory.consCell a x m).read b = if b = a then x else m.read b := by
  unfold Memory.consCell
  split
  · next hx =>
    split
    · next hb => subst hb; rw [Memory.read_of_forall_lt m b h, hx]
    · rfl
  · rfl

/-- Reading after a write (R68): the value written at its address, the old value everywhere else. -/
theorem Memory.read_write : ∀ (m : Memory) (a b : Nat) (x : Byte), m.wf →
    (m.write a x).read b = if b = a then x else m.read b
  | [], a, b, x, _ => Memory.read_consCell [] a b x (by simp)
  | (c, y) :: m, a, b, x, h => by
    obtain ⟨hlt, _, _, hm⟩ := Memory.wf_cons.mp h
    unfold Memory.write
    split
    · next hac =>
      apply Memory.read_consCell
      intro p hp
      rcases List.mem_cons.mp hp with rfl | hp
      · exact hac
      · exact lt_trans hac (hlt p hp)
    · split
      · next _ hac =>
        subst hac
        rw [Memory.read_consCell m a b x hlt, Memory.read_cons]
        split <;> rfl
      · next h1 h2 =>
        rw [Memory.read_cons, Memory.read_cons, Memory.read_write m a b x hm]
        by_cases hbc : b = c
        · subst hbc; simp [Ne.symm h2]
        · simp [hbc]

theorem Memory.mem_consCell {m : Memory} {a : Nat} {x : Byte} {p : Host.Cell} (h : p ∈ Memory.consCell a x m) :
    p = (a, x) ∨ p ∈ m := by
  unfold Memory.consCell at h
  split at h
  · exact .inr h
  · exact List.mem_cons.mp h

theorem Memory.mem_write : ∀ {m : Memory} {a : Nat} {x : Byte} {p : Host.Cell}, p ∈ m.write a x → p = (a, x) ∨ p ∈ m
  | [], _, _, _, h => Memory.mem_consCell h
  | (c, y) :: m, a, x, p, h => by
    unfold Memory.write at h
    split at h
    · exact Memory.mem_consCell h
    · split at h
      · rcases Memory.mem_consCell h with h | h
        · exact .inl h
        · exact .inr (List.mem_cons_of_mem _ h)
      · rcases List.mem_cons.mp h with h | h
        · exact .inr (by simp [h])
        · rcases Memory.mem_write h with h | h
          · exact .inl h
          · exact .inr (List.mem_cons_of_mem _ h)

theorem Memory.wf_consCell {m : Memory} {a : Nat} {x : Byte} (hm : m.wf) (ha : a < Config.memSize)
    (h : ∀ p ∈ m, a < p.1) : (Memory.consCell a x m).wf := by
  unfold Memory.consCell
  split
  · exact hm
  · next hx => exact Memory.wf_cons.mpr ⟨h, ha, hx, hm⟩

/-- A write inside `MEM` keeps the canonical form. -/
theorem Memory.wf_write : ∀ (m : Memory) (a : Nat) (x : Byte), m.wf → a < Config.memSize → (m.write a x).wf
  | [], _, _, h, ha => Memory.wf_consCell h ha (by simp)
  | (c, y) :: m, a, x, h, ha => by
    obtain ⟨hlt, hc, hy, hm⟩ := Memory.wf_cons.mp h
    unfold Memory.write
    split
    · next hac =>
      refine Memory.wf_consCell h ha ?_
      intro p hp
      rcases List.mem_cons.mp hp with rfl | hp
      · exact hac
      · exact lt_trans hac (hlt p hp)
    · split
      · next _ hac => subst hac; exact Memory.wf_consCell hm ha hlt
      · next h1 h2 =>
        refine Memory.wf_cons.mpr ⟨?_, hc, hy, Memory.wf_write m a x hm ha⟩
        intro p hp
        rcases Memory.mem_write hp with rfl | hp
        · show c < a; omega
        · exact hlt p hp

/-- Equal contents are equal data: two canonical memories that read alike are the same list. -/
theorem Memory.ext_of_read : ∀ (m m' : Memory), m.wf → m'.wf → (∀ a, m.read a = m'.read a) → m = m'
  | [], [], _, _, _ => rfl
  | [], (b, x) :: m', _, h', hr => by
    obtain ⟨_, _, hx, _⟩ := Memory.wf_cons.mp h'
    have := hr b
    simp at this
    exact absurd this.symm hx
  | (b, x) :: m, [], h, _, hr => by
    obtain ⟨_, _, hx, _⟩ := Memory.wf_cons.mp h
    have := hr b
    simp at this
    exact absurd this hx
  | (b, x) :: m, (c, y) :: m', h, h', hr => by
    obtain ⟨hlt, _, hx, hm⟩ := Memory.wf_cons.mp h
    obtain ⟨hlt', _, hy, hm'⟩ := Memory.wf_cons.mp h'
    have hbc : b = c := by
      rcases lt_trichotomy b c with hbc | hbc | hbc
      · have e := hr b
        rw [Memory.read_cons, if_pos rfl, Memory.read_cons, if_neg (by omega),
          Memory.read_of_forall_lt m' b (fun p hp => lt_trans hbc (hlt' p hp))] at e
        exact absurd e hx
      · exact hbc
      · have e := hr c
        rw [Memory.read_cons, if_neg (by omega), Memory.read_cons, if_pos rfl,
          Memory.read_of_forall_lt m c (fun p hp => lt_trans hbc (hlt p hp))] at e
        exact absurd e.symm hy
    subst hbc
    have hxy : x = y := by simpa using hr b
    subst hxy
    congr 1
    refine Memory.ext_of_read m m' hm hm' (fun a => ?_)
    by_cases hab : a = b
    · subst hab
      rw [Memory.read_of_forall_lt m a hlt, Memory.read_of_forall_lt m' a hlt']
    · simpa [hab] using hr a

/-! ### Several bytes at ascending addresses (R64) -/

theorem Memory.wf_writeBytes : ∀ (xs : List Byte) (m : Memory) (base : Nat), m.wf →
    base + xs.length ≤ Config.memSize → (m.writeBytes base xs).wf
  | [], _, _, h, _ => h
  | x :: xs, m, base, h, hb => by
    simp only [List.length_cons] at hb
    exact Memory.wf_writeBytes xs _ _ (Memory.wf_write m base x h (by omega)) (by omega)

/-- Everything `writeBytes` does: byte `k` of the list at `base + k`, every other address as before. -/
theorem Memory.read_writeBytes : ∀ (xs : List Byte) (m : Memory) (base a : Nat), m.wf →
    base + xs.length ≤ Config.memSize →
    (m.writeBytes base xs).read a = if base ≤ a then (xs[a - base]?).getD (m.read a) else m.read a
  | [], m, base, a, _, _ => by simp [Memory.writeBytes]
  | x :: xs, m, base, a, h, hb => by
    simp only [List.length_cons] at hb
    rw [Memory.writeBytes, Memory.read_writeBytes xs _ _ a (Memory.wf_write m base x h (by omega)) (by omega),
      Memory.read_write m base a x h]
    rcases lt_trichotomy a base with hlt | rfl | hgt
    · rw [if_neg (by omega), if_neg (by omega), if_neg (by omega)]
    · rw [if_neg (by omega), if_pos rfl, if_pos le_rfl]; simp
    · rw [if_pos (by omega), if_neg (by omega), if_pos (by omega)]
      obtain ⟨d, rfl⟩ : ∃ d, a = base + 1 + d := ⟨a - (base + 1), by omega⟩
      rw [show base + 1 + d - base = d + 1 by omega, show base + 1 + d - (base + 1) = d by omega]
      simp

@[simp] theorem Memory.length_readBytes (m : Memory) (base count : Nat) : (m.readBytes base count).length = count := by
  simp [Memory.readBytes]

theorem Memory.getElem_readBytes (m : Memory) (base count k : Nat) (h : k < (m.readBytes base count).length) :
    (m.readBytes base count)[k] = m.read (base + k) := by
  simp [Memory.readBytes]

/-! ### The range check (R66) -/

/-- The range check in closed form: no violation when the last address is inside `MEM`, else the base itself when it is
outside, else 4096. -/
theorem rangeViolation_eq (base count : Nat) :
    rangeViolation base count =
      if count = 0 ∨ base + (count - 1) ≤ 4095 then none else some (if 4095 < base then base else 4096) := by
  unfold rangeViolation
  split
  · next h =>
    rw [List.find?_eq_none]
    intro a ha
    simp only [List.mem_map, List.mem_range] at ha
    obtain ⟨k, hk, rfl⟩ := ha
    simp only [decide_eq_true_eq, not_lt]
    omega
  · next h =>
    rw [List.find?_eq_some_iff_append]
    push Not at h
    refine ⟨by split <;> simp_all, ?_⟩
    refine ⟨(List.range (4096 - base)).map (base + ·),
      (List.range (count - (4096 - base) - 1)).map (fun k => base + ((4096 - base) + (k + 1))), ?_, ?_⟩
    · have hc : count = (4096 - base) + ((count - (4096 - base) - 1) + 1) := by omega
      conv_lhs => rw [hc, List.range_add, List.range_succ_eq_map]
      simp only [List.map_append, List.map_cons, List.map_map]
      congr 1
      congr 1
      split <;> omega
    · intro a ha
      simp only [List.mem_map, List.mem_range] at ha
      obtain ⟨k, hk, rfl⟩ := ha
      simp
      omega

theorem rangeViolation_none {base count : Nat} (h : count = 0 ∨ base + (count - 1) ≤ 4095) :
    rangeViolation base count = none := by rw [rangeViolation_eq, if_pos h]

theorem rangeViolation_some {base count : Nat} (h : count ≠ 0) (h' : 4095 < base + (count - 1)) :
    rangeViolation base count = some (if 4095 < base then base else 4096) := by
  rw [rangeViolation_eq, if_neg (by omega)]

end Sys2Proof.Machine
end

