-- ==== Sys2Proof/Laws/Registers.lean ====
section
/-! SUPPORT. What the register dump and load, the operand computations and the flag computations give. -/

namespace Sys2Proof.Machine

/-! ### Operands as exact integers -/

theorem add8_toNat (a b : Byte) : (add8 a b).toNat = (a.toNat + b.toNat) % 256 := by simp [add8]

theorem add8_eq (a b : Byte) : add8 a b = a + b := by
  apply BitVec.eq_of_toNat_eq; simp [add8]

theorem sub8_eq (m s : Byte) : sub8 m s = m - s := by
  apply BitVec.eq_of_toInt_eq
  rw [sub8, BitVec.toInt_ofInt, BitVec.toInt_sub, BitVec.toInt_eq_toNat_bmod, BitVec.toInt_eq_toNat_bmod]
  simp

theorem sub8_toNat (m s : Byte) : (sub8 m s).toNat = (m.toNat + 256 - s.toNat) % 256 := by
  rw [sub8_eq, BitVec.toNat_sub]
  have := s.isLt
  congr 1
  omega

theorem shiftRight8_toNat (v : Byte) : (shiftRight8 v).toNat = v.toNat / 2 := by
  simp [shiftRight8, Nat.shiftRight_eq_div_pow]

theorem shiftLeft8_toNat (v : Byte) : (shiftLeft8 v).toNat = v.toNat * 2 % 256 := by
  simp [shiftLeft8, Nat.shiftLeft_eq]

theorem addIndex_toNat (i : Word) (b : Byte) : (addIndex i b).toNat = (i.toNat + b.toNat) % 65536 := by simp [addIndex]

theorem zextAddr_toNat (n : Addr12) : (zextAddr n).toNat = n.toNat := by
  have := n.isLt
  simp [zextAddr]
  omega

theorem zextByte_toNat (b : Byte) : (zextByte b).toNat = b.toNat := by
  have := b.isLt
  simp [zextByte]
  omega

theorem jumpTarget_toNat (nnn : Addr12) (v0 : Byte) : (jumpTarget nnn v0).toNat = nnn.toNat + v0.toNat := by
  have := nnn.isLt
  have := v0.isLt
  rw [jumpTarget, BitVec.toNat_add, zextAddr_toNat, zextByte_toNat]
  omega

theorem glyphAddress_toNat (v : Byte) : (glyphAddress v).toNat = 5 * (v.toNat % 16) := by
  simp [glyphAddress, Config.fontBase, Config.glyphBytes]
  omega

theorem lowBitFlag_eq (v : Byte) : lowBitFlag v = flagByte (decide (v.toNat % 2 = 1)) := by
  simp [lowBitFlag, BitVec.getLsbD, Nat.testBit_zero]

theorem highBitFlag_eq (v : Byte) : highBitFlag v = flagByte (decide (128 ≤ v.toNat)) := by
  have := v.isLt
  simp only [highBitFlag, BitVec.getLsbD, Nat.testBit_eq_decide_div_mod_eq]
  congr 2
  apply propext
  omega

theorem countDown_toNat (t : Byte) : (countDown t).toNat = t.toNat - 1 := by
  unfold countDown
  split
  · next h => rw [BitVec.toNat_sub]; have := t.isLt; simp; omega
  · omega

/-! ### The registers of a dump and of a load -/

@[simp] theorem State.length_regsUpTo (s : State) (x : Reg) : (s.regsUpTo x).length = x.val + 1 := by
  simp [State.regsUpTo]

theorem State.getElem?_regsUpTo (s : State) (x k : Reg) (h : k.val ≤ x.val) :
    (s.regsUpTo x)[k.val]? = some (s.reg k) := by
  simp [State.regsUpTo, State.reg, Nat.lt_succ_of_le h]

/-- Everything a load of a byte list into registers `k, k + 1, …` does. -/
theorem getElem_loadRegsFrom : ∀ (bs : List Byte) (v : Vector Byte 16) (k r : Nat) (h : r < 16),
    (loadRegsFrom v k bs)[r] = if k ≤ r then (bs[r - k]?).getD v[r] else v[r]
  | [], v, k, r, h => by simp [loadRegsFrom]
  | b :: bs, v, k, r, h => by
    rw [loadRegsFrom, getElem_loadRegsFrom bs _ _ r h, Vector.getElem_setIfInBounds]
    rcases lt_trichotomy r k with hlt | rfl | hgt
    · rw [if_neg (by omega), if_neg (by omega), if_neg (by omega)]
    · rw [if_neg (by omega), if_pos rfl, if_pos le_rfl]; simp
    · rw [if_pos (by omega), if_neg (by omega), if_pos (by omega)]
      obtain ⟨d, rfl⟩ : ∃ d, r = k + 1 + d := ⟨r - (k + 1), by omega⟩
      rw [show k + 1 + d - k = d + 1 by omega, show k + 1 + d - (k + 1) = d by omega]
      simp

end Sys2Proof.Machine
end

