-- ==== Sys2Proof/Laws/Display.lean ====
section
/-! SUPPORT. Everything the blitter does (spec/43_display.md rule R181), pixel by pixel: a pixel under a 1 bit of the
sprite is inverted, every other pixel stays, and the collision flag tells whether a set pixel lay under a 1 bit. -/

namespace Sys2Proof.Machine

theorem Framebuffer.pixel_toggle (fb : Framebuffer) (row r : Fin 32) (col c : Fin 64) :
    (fb.toggle row col).pixel r c = if row = r ∧ col = c then !fb.pixel r c else fb.pixel r c := by
  unfold Framebuffer.toggle Framebuffer.pixel
  rw [Vector.getElem_set]
  by_cases hr : row = r
  · subst hr
    by_cases hc : col = c
    · subst hc; simp
    · have : col.val ≠ c.val := fun h => hc (Fin.ext h)
      simp [hc, this]
  · have : row.val ≠ r.val := fun h => hr (Fin.ext h)
    simp [hr, this]

theorem Framebuffer.pixel_blank (r : Fin 32) (c : Fin 64) : Framebuffer.blank.pixel r c = false := by
  simp [Framebuffer.blank, Framebuffer.pixel]

/-- A pixel of one sprite row: some column `k < m` of the row lies on screen column `c` with a 1 bit. -/
def rowCovers (m x0 : Nat) (byte : Byte) (c : Fin 64) : Prop :=
  ∃ k, k < m ∧ Fin.ofNat 64 (x0 + k) = c ∧ spriteBit byte k = true

/-- The first `m` columns of a sprite row (the loop of `blitRow` cut at `m`). -/
def blitCols (m x0 : Nat) (row : Fin 32) (byte : Byte) (b : Blit) : Blit :=
  (List.range m).foldl (fun acc c => blitPixel row (Fin.ofNat 64 (x0 + c)) (spriteBit byte c) acc) b

theorem blitCols_succ (m x0 : Nat) (row : Fin 32) (byte : Byte) (b : Blit) :
    blitCols (m + 1) x0 row byte b =
      blitPixel row (Fin.ofNat 64 (x0 + m)) (spriteBit byte m) (blitCols m x0 row byte b) := by
  simp [blitCols, List.range_succ]

theorem rowCovers_succ (m x0 : Nat) (byte : Byte) (c : Fin 64) :
    rowCovers (m + 1) x0 byte c ↔
      rowCovers m x0 byte c ∨ (Fin.ofNat 64 (x0 + m) = c ∧ spriteBit byte m = true) := by
  constructor
  · rintro ⟨k, hk, h⟩
    rcases Nat.lt_succ_iff_lt_or_eq.mp hk with hk | rfl
    · exact .inl ⟨k, hk, h⟩
    · exact .inr h
  · rintro (⟨k, hk, h⟩ | h)
    · exact ⟨k, by omega, h⟩
    · exact ⟨m, by omega, h⟩

/-- Columns of one sprite row do not meet: a row is 8 wide and the screen 64. -/
theorem not_rowCovers_next {m x0 : Nat} (byte : Byte) (hm : m < 64) :
    ¬ rowCovers m x0 byte (Fin.ofNat 64 (x0 + m)) := by
  rintro ⟨k, hk, h, _⟩
  have := congrArg Fin.val h
  simp at this
  omega

theorem blitCols_spec (x0 : Nat) (row : Fin 32) (byte : Byte) (b : Blit) : ∀ m, m ≤ 64 →
    (∀ r c, (row = r ∧ rowCovers m x0 byte c → (blitCols m x0 row byte b).1.pixel r c = !b.1.pixel r c) ∧
      (¬ (row = r ∧ rowCovers m x0 byte c) → (blitCols m x0 row byte b).1.pixel r c = b.1.pixel r c)) ∧
    ((blitCols m x0 row byte b).2 = true ↔ b.2 = true ∨ ∃ c, rowCovers m x0 byte c ∧ b.1.pixel row c = true)
  | 0, _ => by
    have h0 : ∀ c, ¬ rowCovers 0 x0 byte c := by rintro c ⟨k, hk, _⟩; omega
    simp [blitCols, h0]
  | m + 1, hm => by
    obtain ⟨hp, hh⟩ := blitCols_spec x0 row byte b m (by omega)
    have hnew := not_rowCovers_next (m := m) (x0 := x0) byte (by omega)
    rw [blitCols_succ]
    unfold blitPixel
    by_cases hbit : spriteBit byte m = true
    · rw [if_pos hbit]
      constructor
      · intro r c
        show (_ → (Framebuffer.toggle _ _ _).pixel r c = _) ∧ (_ → (Framebuffer.toggle _ _ _).pixel r c = _)
        rw [Framebuffer.pixel_toggle, rowCovers_succ]
        by_cases hrc : row = r ∧ Fin.ofNat 64 (x0 + m) = c
        · obtain ⟨rfl, rfl⟩ := hrc
          have := (hp row (Fin.ofNat 64 (x0 + m))).2 (by tauto)
          rw [if_pos ⟨rfl, rfl⟩, this]
          exact ⟨fun _ => rfl, fun h => absurd ⟨rfl, .inr ⟨rfl, hbit⟩⟩ h⟩
        · rw [if_neg hrc]
          constructor
          · rintro ⟨rfl, h | h⟩
            · exact (hp row c).1 ⟨rfl, h⟩
            · exact absurd ⟨rfl, h.1⟩ hrc
          · intro h; exact (hp r c).2 (by tauto)
      · show (_ || Framebuffer.pixel _ _ _) = true ↔ _
        rw [Bool.or_eq_true, hh, (hp row _).2 (by tauto)]
        constructor
        · rintro ((h | ⟨c, hc, hpx⟩) | h)
          · exact .inl h
          · exact .inr ⟨c, (rowCovers_succ m x0 byte c).mpr (.inl hc), hpx⟩
          · exact .inr ⟨_, (rowCovers_succ m x0 byte _).mpr (.inr ⟨rfl, hbit⟩), h⟩
        · rintro (h | ⟨c, hc, hpx⟩)
          · exact .inl (.inl h)
          · rcases (rowCovers_succ m x0 byte c).mp hc with hc | ⟨rfl, _⟩
            · exact .inl (.inr ⟨c, hc, hpx⟩)
            · exact .inr hpx
    · rw [if_neg hbit]
      have hs : ∀ c, rowCovers (m + 1) x0 byte c ↔ rowCovers m x0 byte c := by
        intro c; rw [rowCovers_succ]; simp [hbit]
      simp only [hs]
      exact ⟨hp, hh⟩

/-- Pixel `(r, c)` lies under a 1 bit of the rows `bytes` drawn downward from row `y0`. -/
def rowsCover (x0 y0 : Nat) (bytes : List Byte) (r : Fin 32) (c : Fin 64) : Prop :=
  ∃ j byte, bytes[j]? = some byte ∧ Fin.ofNat 32 (y0 + j) = r ∧ rowCovers 8 x0 byte c

theorem rowsCover_cons (x0 y0 : Nat) (byte : Byte) (bytes : List Byte) (r : Fin 32) (c : Fin 64) :
    rowsCover x0 y0 (byte :: bytes) r c ↔
      (Fin.ofNat 32 y0 = r ∧ rowCovers 8 x0 byte c) ∨ rowsCover x0 (y0 + 1) bytes r c := by
  constructor
  · rintro ⟨j, b, hj, hr, hc⟩
    cases j with
    | zero => simp only [List.getElem?_cons_zero, Option.some.injEq] at hj; subst hj; exact .inl ⟨hr, hc⟩
    | succ j =>
      exact .inr ⟨j, b, by simpa using hj, by rw [show y0 + 1 + j = y0 + (j + 1) by omega]; exact hr, hc⟩
  · rintro (⟨hr, hc⟩ | ⟨j, b, hj, hr, hc⟩)
    · exact ⟨0, byte, rfl, hr, hc⟩
    · exact ⟨j + 1, b, by simpa using hj, by rw [show y0 + (j + 1) = y0 + 1 + j by omega]; exact hr, hc⟩

/-- Rows of one sprite do not meet: at most 15 rows on a screen of 32. -/
theorem not_rowsCover_row {x0 y0 : Nat} {bytes : List Byte} (c : Fin 64) (h : bytes.length < 32) :
    ¬ rowsCover x0 (y0 + 1) bytes (Fin.ofNat 32 y0) c := by
  rintro ⟨j, b, hj, hr, _⟩
  have hlt : j < bytes.length := by
    by_contra hge
    rw [List.getElem?_eq_none (by omega)] at hj
    cases hj
  have := congrArg Fin.val hr
  simp at this
  omega

/-- Everything `blitRows` does. -/
theorem blitRows_spec (x0 : Nat) : ∀ (bytes : List Byte) (y0 : Nat) (b : Blit), bytes.length ≤ 32 →
    (∀ r c, (rowsCover x0 y0 bytes r c → (blitRows x0 y0 bytes b).1.pixel r c = !b.1.pixel r c) ∧
      (¬ rowsCover x0 y0 bytes r c → (blitRows x0 y0 bytes b).1.pixel r c = b.1.pixel r c)) ∧
    ((blitRows x0 y0 bytes b).2 = true ↔ b.2 = true ∨ ∃ r c, rowsCover x0 y0 bytes r c ∧ b.1.pixel r c = true)
  | [], y0, b, _ => by
    have h0 : ∀ r c, ¬ rowsCover x0 y0 [] r c := by rintro r c ⟨j, b, hj, _⟩; simp at hj
    simp [blitRows, h0]
  | byte :: bytes, y0, b, hl => by
    simp only [List.length_cons] at hl
    have hrow := blitCols_spec x0 (Fin.ofNat 32 y0) byte b 8 (by omega)
    rw [show blitCols 8 x0 (Fin.ofNat 32 y0) byte b = blitRow x0 (Fin.ofNat 32 y0) byte b from rfl] at hrow
    obtain ⟨hp, hh⟩ := hrow
    obtain ⟨hp', hh'⟩ := blitRows_spec x0 bytes (y0 + 1) (blitRow x0 (Fin.ofNat 32 y0) byte b) (by omega)
    rw [blitRows]
    constructor
    · intro r c
      rw [rowsCover_cons]
      constructor
      · rintro (⟨rfl, hc⟩ | hc)
        · rw [(hp' _ c).2 (not_rowsCover_row c (by omega)), (hp _ c).1 ⟨rfl, hc⟩]
        · rw [(hp' r c).1 hc, (hp r c).2]
          rintro ⟨rfl, _⟩
          exact not_rowsCover_row c (by omega) hc
      · intro h
        rw [(hp' r c).2 (by tauto), (hp r c).2 (by tauto)]
    · rw [hh', hh]
      constructor
      · rintro ((h | ⟨c, hc, hpx⟩) | ⟨r, c, hc, hpx⟩)
        · exact .inl h
        · exact .inr ⟨_, c, (rowsCover_cons x0 y0 byte bytes _ c).mpr (.inl ⟨rfl, hc⟩), hpx⟩
        · refine .inr ⟨r, c, (rowsCover_cons x0 y0 byte bytes r c).mpr (.inr hc), ?_⟩
          rwa [(hp r c).2] at hpx
          rintro ⟨rfl, _⟩
          exact not_rowsCover_row c (by omega) hc
      · rintro (h | ⟨r, c, hc, hpx⟩)
        · exact .inl (.inl h)
        · rcases (rowsCover_cons x0 y0 byte bytes r c).mp hc with ⟨rfl, hd⟩ | hd
          · exact .inl (.inr ⟨c, hd, hpx⟩)
          · refine .inr ⟨r, c, hd, ?_⟩
            rwa [(hp r c).2]
            rintro ⟨rfl, _⟩
            exact not_rowsCover_row c (by omega) hd

/-- The sprite of a `DRW` in the terms of the spec's rule. -/
theorem rowsCover_iff_spriteCovers (s : State) (x y : Reg) (n : Fin 16) (r : Fin 32) (c : Fin 64) :
    rowsCover ((s.reg x).toNat % Config.fbWidth) ((s.reg y).toNat % Config.fbHeight)
      (s.mem.readBytes s.i.toNat n.val) r c ↔ spriteCovers s x y n.val r c := by
  constructor
  · rintro ⟨j, byte, hj, hr, k, hk, hc, hb⟩
    obtain ⟨hlt, hj⟩ := List.getElem?_eq_some_iff.mp hj
    rw [Memory.getElem_readBytes] at hj
    subst hj
    exact ⟨j, k, by simpa using hlt, hk, (congrArg Fin.val hr).symm, (congrArg Fin.val hc).symm, hb⟩
  · rintro ⟨j, k, hj, hk, hr, hc, hb⟩
    refine ⟨j, s.mem.read (s.i.toNat + j), ?_, Fin.ext hr.symm, k, hk, Fin.ext hc.symm, hb⟩
    rw [List.getElem?_eq_getElem (by simpa using hj), Memory.getElem_readBytes]

/-- Everything the blit of `DRW` does to a pixel. -/
theorem State.pixel_drawn (s : State) (x y : Reg) (n : Fin 16) (r : Fin 32) (c : Fin 64) :
    (spriteCovers s x y n.val r c → (s.drawn x y n).1.pixel r c = !s.pixel r c) ∧
      (¬ spriteCovers s x y n.val r c → (s.drawn x y n).1.pixel r c = s.pixel r c) := by
  rw [← rowsCover_iff_spriteCovers]
  exact (blitRows_spec _ _ _ (s.fb, false) (by simp; omega)).1 r c

/-- The collision: some pixel set before the draw lies under a 1 bit of the sprite. -/
theorem State.hit_drawn (s : State) (x y : Reg) (n : Fin 16) :
    (s.drawn x y n).2 = true ↔ ∃ r c, spriteCovers s x y n.val r c ∧ s.pixel r c = true := by
  simp only [← rowsCover_iff_spriteCovers]
  have := (blitRows_spec ((s.reg x).toNat % Config.fbWidth) (s.mem.readBytes s.i.toNat n.val)
    ((s.reg y).toNat % Config.fbHeight) (s.fb, false) (by simp; omega)).2
  simpa [State.drawn, State.pixel] using this

end Sys2Proof.Machine
end

