-- ==== Sys2Proof/Laws/Encoding.lean ====
section
/-! SUPPORT. The fields of a word built by each format of spec/30_encoding.md rule R92, and the word rebuilt from its
fields. -/

namespace Sys2Proof

theorem toNat_append_word {n m : Nat} (a : BitVec n) (b : BitVec m) : (a ++ b).toNat = a.toNat * 2 ^ m + b.toNat := by
  rw [BitVec.toNat_append, ← Nat.shiftLeft_add_eq_or_of_lt b.isLt, Nat.shiftLeft_eq]

theorem formatNNN_toNat (t : BitVec 4) (nnn : Addr12) : (formatNNN t nnn).toNat = t.toNat * 4096 + nnn.toNat :=
  toNat_append_word t nnn

theorem formatXKK_toNat (t : BitVec 4) (x : Reg) (kk : Byte) :
    (formatXKK t x kk).toNat = (t.toNat * 16 + x.val) * 256 + kk.toNat := by
  show ((t ++ regBits x) ++ kk).toNat = _
  rw [toNat_append_word, toNat_append_word]; rfl

theorem formatXYN_toNat (t : BitVec 4) (x y : Reg) (n : BitVec 4) :
    (formatXYN t x y n).toNat = ((t.toNat * 16 + x.val) * 16 + y.val) * 16 + n.toNat := by
  show (((t ++ regBits x) ++ regBits y) ++ n).toNat = _
  rw [toNat_append_word, toNat_append_word, toNat_append_word]; rfl

theorem topNibble_toNat (op : Word) : (topNibble op).toNat = op.toNat / 4096 % 16 := by
  simp [topNibble, BitVec.extractLsb'_toNat, Nat.shiftRight_eq_div_pow]

theorem xField_val (op : Word) : (xField op).val = op.toNat / 256 % 16 := by
  show (op.extractLsb' 8 4).toNat = _
  simp [BitVec.extractLsb'_toNat, Nat.shiftRight_eq_div_pow]

theorem yField_val (op : Word) : (yField op).val = op.toNat / 16 % 16 := by
  show (op.extractLsb' 4 4).toNat = _
  simp [BitVec.extractLsb'_toNat, Nat.shiftRight_eq_div_pow]

theorem nField_val (op : Word) : (nField op).val = op.toNat % 16 := by
  show (op.extractLsb' 0 4).toNat = _
  simp [BitVec.extractLsb'_toNat]

theorem bottomNibble_toNat (op : Word) : (bottomNibble op).toNat = op.toNat % 16 := by
  simp [bottomNibble, BitVec.extractLsb'_toNat]

theorem kkField_toNat (op : Word) : (kkField op).toNat = op.toNat % 256 := by
  simp [kkField, BitVec.extractLsb'_toNat]

theorem nnnField_toNat (op : Word) : (nnnField op).toNat = op.toNat % 4096 := by
  simp [nnnField, BitVec.extractLsb'_toNat]

/-! ### The fields of a built word -/

@[simp] theorem topNibble_formatNNN (t : BitVec 4) (nnn : Addr12) : topNibble (formatNNN t nnn) = t := by
  apply BitVec.eq_of_toNat_eq; rw [topNibble_toNat, formatNNN_toNat]; omega

@[simp] theorem nnnField_formatNNN (t : BitVec 4) (nnn : Addr12) : nnnField (formatNNN t nnn) = nnn := by
  apply BitVec.eq_of_toNat_eq; rw [nnnField_toNat, formatNNN_toNat]; omega

@[simp] theorem topNibble_formatXKK (t : BitVec 4) (x : Reg) (kk : Byte) : topNibble (formatXKK t x kk) = t := by
  apply BitVec.eq_of_toNat_eq; rw [topNibble_toNat, formatXKK_toNat]; omega

@[simp] theorem xField_formatXKK (t : BitVec 4) (x : Reg) (kk : Byte) : xField (formatXKK t x kk) = x := by
  apply Fin.ext; rw [xField_val, formatXKK_toNat]; omega

@[simp] theorem kkField_formatXKK (t : BitVec 4) (x : Reg) (kk : Byte) : kkField (formatXKK t x kk) = kk := by
  apply BitVec.eq_of_toNat_eq; rw [kkField_toNat, formatXKK_toNat]; omega

@[simp] theorem topNibble_formatXYN (t : BitVec 4) (x y : Reg) (n : BitVec 4) : topNibble (formatXYN t x y n) = t := by
  apply BitVec.eq_of_toNat_eq; rw [topNibble_toNat, formatXYN_toNat]; omega

@[simp] theorem xField_formatXYN (t : BitVec 4) (x y : Reg) (n : BitVec 4) : xField (formatXYN t x y n) = x := by
  apply Fin.ext; rw [xField_val, formatXYN_toNat]; omega

@[simp] theorem yField_formatXYN (t : BitVec 4) (x y : Reg) (n : BitVec 4) : yField (formatXYN t x y n) = y := by
  apply Fin.ext; rw [yField_val, formatXYN_toNat]; omega

@[simp] theorem bottomNibble_formatXYN (t : BitVec 4) (x y : Reg) (n : BitVec 4) :
    bottomNibble (formatXYN t x y n) = n := by
  apply BitVec.eq_of_toNat_eq; rw [bottomNibble_toNat, formatXYN_toNat]; omega

@[simp] theorem nField_formatXYN (t : BitVec 4) (x y n : Reg) : nField (formatXYN t x y (regBits n)) = n := by
  apply Fin.ext; rw [nField_val, formatXYN_toNat]; show (_ + n.val) % 16 = _; omega

/-! ### A word rebuilt from its fields -/

theorem formatNNN_fields (op : Word) : formatNNN (topNibble op) (nnnField op) = op := by
  apply BitVec.eq_of_toNat_eq; rw [formatNNN_toNat, topNibble_toNat, nnnField_toNat]; omega

theorem formatXKK_fields (op : Word) : formatXKK (topNibble op) (xField op) (kkField op) = op := by
  apply BitVec.eq_of_toNat_eq; rw [formatXKK_toNat, topNibble_toNat, xField_val, kkField_toNat]; omega

theorem formatXYN_fields (op : Word) : formatXYN (topNibble op) (xField op) (yField op) (bottomNibble op) = op := by
  apply BitVec.eq_of_toNat_eq; rw [formatXYN_toNat, topNibble_toNat, xField_val, yField_val, bottomNibble_toNat]; omega

theorem regBits_nField (op : Word) : regBits (nField op) = bottomNibble op := rfl

/-! ### Bytes and words (R63) -/

theorem wordOfBytes_toNat (hi lo : Byte) : (wordOfBytes hi lo).toNat = hi.toNat * 256 + lo.toNat :=
  toNat_append_word hi lo

/-- A word laid out in memory order and read back big-endian is the word. -/
theorem wordOfBytes_bytesOfWord (op : Word) : wordOfBytes (op.extractLsb' 8 8) (op.extractLsb' 0 8) = op := by
  apply BitVec.eq_of_toNat_eq
  rw [wordOfBytes_toNat, BitVec.extractLsb'_toNat, BitVec.extractLsb'_toNat, Nat.shiftRight_eq_div_pow]
  have := op.isLt
  simp
  omega

/-- What the decoder does on two bytes is what `classify` says of their word. -/
theorem decode_cons_cons (hi lo : Byte) (rest : List Byte) :
    decode (hi :: lo :: rest) =
      match classify (wordOfBytes hi lo) with
      | some i => .ok (i, rest)
      | none => .error (.unrecognised (wordOfBytes hi lo)) := rfl

/-- The decoder on the bytes of a word. -/
theorem decodeTableWord_eq (w : Nat) : decodeTableWord 16 w = classify (BitVec.ofNat 16 w) := by
  have h : BitVec.ofNat 16 (w % 2 ^ 16) = BitVec.ofNat 16 w := by
    apply BitVec.eq_of_toNat_eq; simp
  rw [decodeTableWord, h, bytesOfWord, decode_cons_cons, wordOfBytes_bytesOfWord]
  cases classify (BitVec.ofNat 16 w) <;> rfl

/-! ### A built word under a mask of spec/opcode_table.json -/

theorem getLsbD_append_at {n m : Nat} (a : BitVec n) (b : BitVec m) (i : Nat) :
    (a ++ b).getLsbD i = if i < m then b.getLsbD i else a.getLsbD (i - m) := by
  rw [BitVec.getLsbD_append]

theorem getLsbD_formatNNN (t : BitVec 4) (nnn : Addr12) (i : Nat) :
    (formatNNN t nnn).getLsbD i = if i < 12 then nnn.getLsbD i else t.getLsbD (i - 12) :=
  getLsbD_append_at t nnn i

theorem getLsbD_formatXKK (t : BitVec 4) (x : Reg) (kk : Byte) (i : Nat) :
    (formatXKK t x kk).getLsbD i =
      if i < 8 then kk.getLsbD i else if i - 8 < 4 then (regBits x).getLsbD (i - 8) else t.getLsbD (i - 8 - 4) := by
  show ((t ++ regBits x) ++ kk).getLsbD i = _
  rw [getLsbD_append_at, getLsbD_append_at]

theorem getLsbD_formatXYN (t : BitVec 4) (x y : Reg) (n : BitVec 4) (i : Nat) :
    (formatXYN t x y n).getLsbD i =
      if i < 4 then n.getLsbD i else if i - 4 < 4 then (regBits y).getLsbD (i - 4)
      else if i - 4 - 4 < 4 then (regBits x).getLsbD (i - 4 - 4) else t.getLsbD (i - 4 - 4 - 4) := by
  show (((t ++ regBits x) ++ regBits y) ++ n).getLsbD i = _
  rw [getLsbD_append_at, getLsbD_append_at, getLsbD_append_at]

theorem getLsbD_mask (w m : Word) (i : Nat) : (w &&& m).getLsbD i = (w.getLsbD i && m.getLsbD i) :=
  BitVec.getLsbD_and

theorem regBits_zero : regBits 0 = 0#4 := rfl

theorem formatNNN_row (t : BitVec 4) (nnn : Addr12) : formatNNN t nnn &&& 0xF000#16 = formatNNN t 0 := by
  apply BitVec.eq_of_getLsbD_eq
  intro i hi
  rw [getLsbD_mask, getLsbD_formatNNN, getLsbD_formatNNN]
  interval_cases i <;> simp

theorem formatXKK_row (t : BitVec 4) (x : Reg) (kk : Byte) :
    formatXKK t x kk &&& 0xF000#16 = formatXKK t 0 0 ∧ formatXKK t x kk &&& 0xF0FF#16 = formatXKK t 0 kk := by
  constructor <;> apply BitVec.eq_of_getLsbD_eq <;> intro i hi <;>
    rw [getLsbD_mask, getLsbD_formatXKK, getLsbD_formatXKK, regBits_zero] <;> interval_cases i <;> simp

theorem formatXYN_row (t : BitVec 4) (x y : Reg) (n : BitVec 4) :
    formatXYN t x y n &&& 0xF000#16 = formatXYN t 0 0 0 ∧ formatXYN t x y n &&& 0xF00F#16 = formatXYN t 0 0 n := by
  constructor <;> apply BitVec.eq_of_getLsbD_eq <;> intro i hi <;>
    rw [getLsbD_mask, getLsbD_formatXYN, getLsbD_formatXYN, regBits_zero] <;> interval_cases i <;> simp

end Sys2Proof
end

