-- ==== Sys2Proof/Laws/Step.lean ====
section
/-! SUPPORT. What a transition can be, what the range-checked instructions leave, and that `withFetchWord` makes the very
next step run its word. -/

namespace Sys2Proof.Machine

/-- Everything a range-checked access can leave (R66, R228): the state after the accesses, or fault entry with the
lowest offending address. -/
theorem State.withRange_cases (s : State) (ins : Instr) (count : Nat) (k : State) :
    ((count = 0 ∨ s.i.toNat + (count - 1) ≤ 4095) ∧ s.withRange ins count k = k) ∨
    (count ≠ 0 ∧ 4095 < s.i.toNat + (count - 1) ∧
      s.withRange ins count k =
        s.raise .memRange (some (encode ins)) (some (if 4095 < s.i.toNat then s.i.toNat else 4096))) := by
  unfold State.withRange
  by_cases h : count = 0 ∨ s.i.toNat + (count - 1) ≤ 4095
  · exact .inl ⟨h, by rw [rangeViolation_none h]⟩
  · push Not at h
    exact .inr ⟨h.1, h.2, by rw [rangeViolation_some h.1 h.2]⟩

theorem State.fetch_eq_some {s : State} {op : Word} :
    s.fetch = some op ↔
      s.pc.toNat ≤ 4094 ∧ op = wordOfBytes (s.readByte s.pc.toNat) (s.readByte (s.pc.toNat + 1)) := by
  unfold State.fetch
  split
  · simp; omega
  · simp only [Option.some.injEq]
    constructor
    · rintro rfl; exact ⟨by omega, rfl⟩
    · rintro ⟨_, rfl⟩; rfl

theorem State.fetch_eq_none {s : State} : s.fetch = none ↔ 4094 < s.pc.toNat := by
  unfold State.fetch
  split <;> simp_all

/-- Everything a transition can be (R104, R232, R233). -/
theorem step_cases {s t : State} (h : step s = .next t) :
    s.status = .running ∧
    ((s.nextAgent = .timer ∧ t = s.afterAgent.tick) ∨
     (s.nextAgent = .instruction ∧ s.fetch = none ∧
        t = s.afterAgent.raise .memRange none (some s.pc.toNat)) ∨
     (∃ op, s.nextAgent = .instruction ∧ s.fetch = some op ∧ classify op = none ∧
        t = s.afterAgent.raise .unrecognizedOpcode (some op) none) ∨
     (∃ op i, s.nextAgent = .instruction ∧ s.fetch = some op ∧ classify op = some i ∧
        exec i s.afterAgent = .next t)) := by
  have hf : s.afterAgent.fetch = s.fetch := rfl
  unfold step noStepReason at h
  cases hs : s.status with
  | halted => rw [hs] at h; cases h
  | fault => rw [hs] at h; cases h
  | running =>
    rw [hs] at h
    refine ⟨rfl, ?_⟩
    dsimp only at h
    cases ha : s.nextAgent with
    | timer => rw [ha] at h; cases h; exact .inl ⟨rfl, rfl⟩
    | instruction =>
      rw [ha] at h
      simp only [instructionStep, hf] at h
      cases hop : s.fetch with
      | none => rw [hop] at h; cases h; exact .inr (.inl ⟨rfl, rfl, rfl⟩)
      | some op =>
        rw [hop] at h
        dsimp only at h
        cases hi : classify op with
        | none => rw [hi] at h; cases h; exact .inr (.inr (.inl ⟨op, rfl, rfl, hi, rfl⟩))
        | some i => rw [hi] at h; exact .inr (.inr (.inr ⟨op, i, rfl, rfl, hi, h⟩))

/-- On the instruction agent's turn, a recognised word in range runs. -/
theorem step_of_fetch {s : State} {op : Word} {i : Instr} (hs : s.status = .running)
    (ha : s.nextAgent = .instruction) (hf : s.fetch = some op) (hi : classify op = some i) :
    step s = exec i s.afterAgent := by
  have hf' : s.afterAgent.fetch = some op := hf
  simp only [step, noStepReason, hs, ha, instructionStep, hf', hi]

theorem State.fetchPlace_le (s : State) : s.fetchPlace.toNat ≤ 4094 := by
  unfold State.fetchPlace
  split
  · decide
  · omega

/-- `withFetchWord` makes the next step fetch exactly its word. -/
theorem State.fetch_withFetchWord (s : State) (w : Nat) (h : s.mem.wf) :
    (s.withFetchWord 16 w).fetch = some (BitVec.ofNat 16 w) := by
  have hle := s.fetchPlace_le
  have hw : BitVec.ofNat 16 (w % 2 ^ 16) = BitVec.ofNat 16 w := by apply BitVec.eq_of_toNat_eq; simp
  rw [State.fetch_eq_some]
  refine ⟨hle, ?_⟩
  show _ = wordOfBytes (Memory.read _ _) (Memory.read _ _)
  simp only [State.withFetchWord, hw]
  rw [Memory.read_writeBytes _ _ _ _ h (by simp [bytesOfWord, Config.memSize]; omega),
    Memory.read_writeBytes _ _ _ _ h (by simp [bytesOfWord, Config.memSize]; omega)]
  simp [bytesOfWord, wordOfBytes_bytesOfWord]

/-- The very next step after `withFetchWord` runs the instruction of its word. -/
theorem step_withFetchWord (s : State) (w : Nat) (i : Instr) (h : s.mem.wf)
    (hi : classify (BitVec.ofNat 16 w) = some i) :
    step (s.withFetchWord 16 w) = exec i (s.withFetchWord 16 w).afterAgent :=
  step_of_fetch rfl rfl (s.fetch_withFetchWord w h) hi

/-- Reset with an empty ROM and the default FONT is `State.reset` (R260, R262). -/
theorem applyReset_default : State.reset.applyReset [] Config.font = some State.reset := by decide

end Sys2Proof.Machine
end

