-- ==== Sys2Proof/Laws/Frames.lean ====
section
/-! SUPPORT. How a frame follows from equal fields, what fault entry and the range check leave, and how an instruction can
come to raise. -/

namespace Sys2Proof.Machine

theorem Part.unchanged_refl (p : Part) (s : State) : p.unchanged s s := by cases p <;> simp [Part.unchanged]

theorem changesOnly_refl (ps : List Part) (rs : List Reg) (s : State) : changesOnly ps rs s s :=
  ⟨fun p _ => p.unchanged_refl s, fun _ _ => rfl⟩

/-- A frame, field by field: each part is listed or its field is equal. -/
theorem changesOnly_of_fields {s t : State} {ps : List Part} {rs : List Reg}
    (hi : Part.index ∈ ps ∨ t.i = s.i) (hsp : Part.sp ∈ ps ∨ t.sp = s.sp)
    (hstack : Part.stack ∈ ps ∨ t.stack = s.stack) (hdt : Part.dt ∈ ps ∨ t.dt = s.dt)
    (hst : Part.st ∈ ps ∨ t.st = s.st) (hmem : Part.mem ∈ ps ∨ t.mem = s.mem) (hfb : Part.fb ∈ ps ∨ t.fb = s.fb)
    (hstatus : Part.status ∈ ps ∨ t.status = s.status) (herr : Part.err ∈ ps ∨ t.err = s.err)
    (hin : Part.inputs ∈ ps ∨ t.inputs = s.inputs) (hreg : ∀ r, r ∉ rs → t.reg r = s.reg r) :
    changesOnly ps rs s t := by
  refine ⟨fun p hp => ?_, hreg⟩
  cases p
  · exact hi.resolve_left hp
  · exact hsp.resolve_left hp
  · exact State.slot_congr (hstack.resolve_left hp)
  · exact hdt.resolve_left hp
  · exact hst.resolve_left hp
  · exact State.readByte_congr (hmem.resolve_left hp)
  · exact State.pixel_congr (hfb.resolve_left hp)
  · exact hstatus.resolve_left hp
  · exact herr.resolve_left hp
  · exact hin.resolve_left hp

theorem faultEntry_raise (s : State) (kind : FatalKind) (opcode : Option Word) (addr : Option Nat) :
    faultEntry s (s.raise kind opcode addr) kind opcode addr := by
  refine ⟨rfl, rfl, rfl, ?_⟩
  apply changesOnly_of_fields <;> first | exact .inl (by decide) | exact .inr rfl | exact fun _ _ => rfl

/-! ### Registers after a write -/

theorem reg_setReg_advance_self (s : State) (x : Reg) (b : Byte) : (s.setReg x b).advance.reg x = b := by
  show (s.setReg x b).reg x = _
  rw [State.reg_setReg, if_pos rfl]

theorem reg_setReg_advance_of_not_mem (s : State) {x r : Reg} (b : Byte) (h : r ∉ [x]) :
    (s.setReg x b).advance.reg r = s.reg r := by
  show (s.setReg x b).reg r = _
  rw [State.reg_setReg, if_neg]
  rintro rfl
  simp at h

theorem reg_writeWithFlag_flag (s : State) (x : Reg) (result flag : Byte) :
    (s.writeWithFlag x result flag).reg 15 = flag := by
  rw [State.reg_writeWithFlag, if_pos (by rfl)]

theorem reg_writeWithFlag_result (s : State) {x : Reg} (result flag : Byte) (h : x ≠ 15) :
    (s.writeWithFlag x result flag).reg x = result := by
  rw [State.reg_writeWithFlag, if_neg (fun e => h e.symm), if_pos rfl]

theorem changesOnly_writeWithFlag (s : State) (x : Reg) (result flag : Byte) :
    changesOnly [] [x, 15] s (s.writeWithFlag x result flag) := by
  apply changesOnly_of_fields <;> first | exact .inr rfl | skip
  intro r h
  simp at h
  rw [State.reg_writeWithFlag, if_neg (fun e => h.2 e.symm), if_neg (fun e => h.1 e.symm)]

theorem flagByte_toNat (p : Bool) : (flagByte p).toNat = if p then 1 else 0 := by cases p <;> rfl

/-- The registers after a load of `V[0]` to `V[x]`. -/
theorem reg_loadRegs (s : State) (x k : Reg) :
    ({ s with v := loadRegsFrom s.v 0 (s.mem.readBytes s.i.toNat (x.val + 1)) } : State).advance.reg k =
      if k.val ≤ x.val then s.readByte (s.i.toNat + k.val) else s.reg k := by
  show (loadRegsFrom _ _ _)[k.val] = _
  rw [getElem_loadRegsFrom, if_pos (by omega)]
  split
  · rw [List.getElem?_eq_getElem (by simp; omega), Memory.getElem_readBytes]; rfl
  · rw [List.getElem?_eq_none (by simp; omega)]; rfl

/-! ### The range check -/

theorem State.withRange_inside {s : State} {ins : Instr} {count : Nat} {k : State}
    (h : count = 0 ∨ s.i.toNat + (count - 1) ≤ 4095) : s.withRange ins count k = k := by
  simp [State.withRange, rangeViolation_none h]

theorem State.withRange_outside {s : State} {ins : Instr} {count : Nat} {k : State} (h : count ≠ 0)
    (h' : 4095 < s.i.toNat + (count - 1)) :
    s.withRange ins count k =
      s.raise .memRange (some (encode ins)) (some (if 4095 < s.i.toNat then s.i.toNat else 4096)) := by
  simp only [State.withRange, rangeViolation_some h h']

/-! ### How an instruction comes to raise -/

/-- From a running state, an instruction that ends in `FAULT` is one of the six of R220, with its record. -/
theorem exec_raise_cases {i : Instr} {s t : State} (hr : s.status = .running) (h : exec i s = .next t)
    (hf : t.status = .fault) :
    (∃ nnn, i = .call nnn ∧ s.sp.val = 15 ∧ t = s.raise .stackOverflow (some (encode i)) none) ∨
    (i = .ret ∧ s.sp.val = 0 ∧ t = s.raise .stackUnderflow (some (encode i)) none) ∨
    (((∃ x y n, i = .drw x y n) ∨ (∃ x, i = .ldB x) ∨ (∃ x, i = .ldMemVx x) ∨ ∃ x, i = .ldVxMem x) ∧
      t = s.raise .memRange (some (encode i)) (some (if 4095 < s.i.toNat then s.i.toNat else 4096))) := by
  have hrr : s.status ≠ .fault := by rw [hr]; decide
  have range : ∀ {count : Nat} {k : State}, t = s.withRange i count k → k.status = s.status →
      t = s.raise .memRange (some (encode i)) (some (if 4095 < s.i.toNat then s.i.toNat else 4096)) := by
    intro count k ht hk
    rcases s.withRange_cases i count k with ⟨_, e⟩ | ⟨_, _, e⟩
    · rw [ht, e, hk] at hf; exact absurd hf hrr
    · rw [ht, e]
  cases i
  case ret =>
    simp only [exec, execRet] at h
    split at h <;> cases h
    · next e => exact .inr (.inl ⟨rfl, by rw [e]; rfl, rfl⟩)
    · exact absurd hf hrr
  case call =>
    simp only [exec, execCall] at h
    split at h <;> cases h
    · next e => exact .inl ⟨_, rfl, by rw [e]; rfl, rfl⟩
    · exact absurd hf hrr
  case jp =>
    simp only [exec, execJp] at h
    split at h <;> cases h
    · simp at hf
    · exact absurd hf hrr
  case ldVxK =>
    simp only [exec, execLdVxK, Host.Outcome.next.injEq] at h
    rw [← h] at hf
    split at hf <;> exact absurd hf hrr
  case drw x y n =>
    simp only [exec, execDrw, Host.Outcome.next.injEq] at h
    exact .inr (.inr ⟨.inl ⟨x, y, n, rfl⟩, range h.symm rfl⟩)
  case ldB x =>
    simp only [exec, execLdB, Host.Outcome.next.injEq] at h
    exact .inr (.inr ⟨.inr (.inl ⟨x, rfl⟩), range h.symm rfl⟩)
  case ldMemVx x =>
    simp only [exec, execLdMemVx, Host.Outcome.next.injEq] at h
    exact .inr (.inr ⟨.inr (.inr (.inl ⟨x, rfl⟩)), range h.symm rfl⟩)
  case ldVxMem x =>
    simp only [exec, execLdVxMem, Host.Outcome.next.injEq] at h
    exact .inr (.inr ⟨.inr (.inr (.inr ⟨x, rfl⟩)), range h.symm rfl⟩)
  all_goals (cases h; exact absurd hf hrr)

end Sys2Proof.Machine
end

