-- ==== Sys2Proof/Laws/PerInstr.lean ====
section
/-! SUPPORT. Per-instruction laws about the instruction as syntax. Family TableRow: the encoder's word lies in the row of
spec/opcode_table.json that the instruction stands for: its bits under the row's mask are the row's match. -/

namespace Sys2Proof.Laws.TableRow

/-- The word of `i` under its row's mask is its row's match. -/
def Statement (i : Instr) : Prop := encode i &&& (opcodeRow i).mask = (opcodeRow i).pattern

theorem cls : Statement .cls := rfl
theorem ret : Statement .ret := rfl
theorem jp (nnn : Addr12) : Statement (.jp nnn) := (formatNNN_row _ nnn).trans rfl
theorem call (nnn : Addr12) : Statement (.call nnn) := (formatNNN_row _ nnn).trans rfl
theorem seImm (x : Reg) (kk : Byte) : Statement (.seImm x kk) := (formatXKK_row _ x kk).1.trans rfl
theorem sneImm (x : Reg) (kk : Byte) : Statement (.sneImm x kk) := (formatXKK_row _ x kk).1.trans rfl
theorem seReg (x y : Reg) : Statement (.seReg x y) := (formatXYN_row _ x y _).2.trans rfl
theorem ldImm (x : Reg) (kk : Byte) : Statement (.ldImm x kk) := (formatXKK_row _ x kk).1.trans rfl
theorem addImm (x : Reg) (kk : Byte) : Statement (.addImm x kk) := (formatXKK_row _ x kk).1.trans rfl
theorem ldReg (x y : Reg) : Statement (.ldReg x y) := (formatXYN_row _ x y _).2.trans rfl
theorem orReg (x y : Reg) : Statement (.orReg x y) := (formatXYN_row _ x y _).2.trans rfl
theorem andReg (x y : Reg) : Statement (.andReg x y) := (formatXYN_row _ x y _).2.trans rfl
theorem xorReg (x y : Reg) : Statement (.xorReg x y) := (formatXYN_row _ x y _).2.trans rfl
theorem addReg (x y : Reg) : Statement (.addReg x y) := (formatXYN_row _ x y _).2.trans rfl
theorem subReg (x y : Reg) : Statement (.subReg x y) := (formatXYN_row _ x y _).2.trans rfl
theorem shr (x y : Reg) : Statement (.shr x y) := (formatXYN_row _ x y _).2.trans rfl
theorem subnReg (x y : Reg) : Statement (.subnReg x y) := (formatXYN_row _ x y _).2.trans rfl
theorem shl (x y : Reg) : Statement (.shl x y) := (formatXYN_row _ x y _).2.trans rfl
theorem sneReg (x y : Reg) : Statement (.sneReg x y) := (formatXYN_row _ x y _).2.trans rfl
theorem ldI (nnn : Addr12) : Statement (.ldI nnn) := (formatNNN_row _ nnn).trans rfl
theorem jpV0 (nnn : Addr12) : Statement (.jpV0 nnn) := (formatNNN_row _ nnn).trans rfl
theorem rnd (x : Reg) (kk : Byte) : Statement (.rnd x kk) := (formatXKK_row _ x kk).1.trans rfl
theorem drw (x y : Reg) (n : Fin 16) : Statement (.drw x y n) := (formatXYN_row _ x y _).1.trans rfl
theorem skp (x : Reg) : Statement (.skp x) := (formatXKK_row _ x _).2.trans rfl
theorem sknp (x : Reg) : Statement (.sknp x) := (formatXKK_row _ x _).2.trans rfl
theorem ldVxDt (x : Reg) : Statement (.ldVxDt x) := (formatXKK_row _ x _).2.trans rfl
theorem ldVxK (x : Reg) : Statement (.ldVxK x) := (formatXKK_row _ x _).2.trans rfl
theorem ldDtVx (x : Reg) : Statement (.ldDtVx x) := (formatXKK_row _ x _).2.trans rfl
theorem ldStVx (x : Reg) : Statement (.ldStVx x) := (formatXKK_row _ x _).2.trans rfl
theorem addI (x : Reg) : Statement (.addI x) := (formatXKK_row _ x _).2.trans rfl
theorem ldF (x : Reg) : Statement (.ldF x) := (formatXKK_row _ x _).2.trans rfl
theorem ldB (x : Reg) : Statement (.ldB x) := (formatXKK_row _ x _).2.trans rfl
theorem ldMemVx (x : Reg) : Statement (.ldMemVx x) := (formatXKK_row _ x _).2.trans rfl
theorem ldVxMem (x : Reg) : Statement (.ldVxMem x) := (formatXKK_row _ x _).2.trans rfl

end Sys2Proof.Laws.TableRow
end

