-- ==== Sys2Proof/Laws/Run.lean ====
section
/-! SUPPORT. What one enable of an agent does, that no instruction reads the schedule, and what a run keeps. -/

namespace Sys2Proof.Machine

@[simp] theorem State.withSchedule_v (s : State) (l : List Agent) : (s.withSchedule l).v = s.v := rfl
@[simp] theorem State.withSchedule_i (s : State) (l : List Agent) : (s.withSchedule l).i = s.i := rfl
@[simp] theorem State.withSchedule_pc (s : State) (l : List Agent) : (s.withSchedule l).pc = s.pc := rfl
@[simp] theorem State.withSchedule_sp (s : State) (l : List Agent) : (s.withSchedule l).sp = s.sp := rfl
@[simp] theorem State.withSchedule_stack (s : State) (l : List Agent) : (s.withSchedule l).stack = s.stack := rfl
@[simp] theorem State.withSchedule_dt (s : State) (l : List Agent) : (s.withSchedule l).dt = s.dt := rfl
@[simp] theorem State.withSchedule_st (s : State) (l : List Agent) : (s.withSchedule l).st = s.st := rfl
@[simp] theorem State.withSchedule_mem (s : State) (l : List Agent) : (s.withSchedule l).mem = s.mem := rfl
@[simp] theorem State.withSchedule_fb (s : State) (l : List Agent) : (s.withSchedule l).fb = s.fb := rfl
@[simp] theorem State.withSchedule_status (s : State) (l : List Agent) : (s.withSchedule l).status = s.status := rfl
@[simp] theorem State.withSchedule_err (s : State) (l : List Agent) : (s.withSchedule l).err = s.err := rfl
@[simp] theorem State.withSchedule_inputs (s : State) (l : List Agent) :
    (s.withSchedule l).inputs = { s.inputs with schedule := l } := rfl
@[simp] theorem State.withSchedule_withSchedule (s : State) (l m : List Agent) :
    (s.withSchedule l).withSchedule m = s.withSchedule m := rfl

@[simp] theorem State.enable_v (s : State) (a : Agent) : (s.enable a).v = s.v := rfl
@[simp] theorem State.enable_i (s : State) (a : Agent) : (s.enable a).i = s.i := rfl
@[simp] theorem State.enable_pc (s : State) (a : Agent) : (s.enable a).pc = s.pc := rfl
@[simp] theorem State.enable_sp (s : State) (a : Agent) : (s.enable a).sp = s.sp := rfl
@[simp] theorem State.enable_stack (s : State) (a : Agent) : (s.enable a).stack = s.stack := rfl
@[simp] theorem State.enable_dt (s : State) (a : Agent) : (s.enable a).dt = s.dt := rfl
@[simp] theorem State.enable_st (s : State) (a : Agent) : (s.enable a).st = s.st := rfl
@[simp] theorem State.enable_mem (s : State) (a : Agent) : (s.enable a).mem = s.mem := rfl
@[simp] theorem State.enable_fb (s : State) (a : Agent) : (s.enable a).fb = s.fb := rfl
@[simp] theorem State.enable_status (s : State) (a : Agent) : (s.enable a).status = s.status := rfl
@[simp] theorem State.enable_err (s : State) (a : Agent) : (s.enable a).err = s.err := rfl
@[simp] theorem State.enable_nextAgent (s : State) (a : Agent) : (s.enable a).nextAgent = a := rfl

/-- An enable leaves the schedule script as it was and counts one turn. -/
theorem State.enable_afterAgent (s : State) (a : Agent) :
    (s.enable a).afterAgent = s.setInputs { s.inputs with turns := s.inputs.turns + 1 } := rfl

/-! ### Instructions and the schedule -/

/-- Every instruction answers a next state, and none reads or writes the schedule script. -/
theorem exec_withSchedule (i : Instr) (s : State) (l : List Agent) :
    ∃ t, exec i s = .next t ∧ exec i (s.withSchedule l) = .next (t.withSchedule l) := by
  have range : ∀ (ins : Instr) (c : Nat) (k k' : State), k' = k.withSchedule l →
      Host.Outcome.next ((s.withSchedule l).withRange ins c k') =
        (Host.Outcome.next ((s.withRange ins c k).withSchedule l) : Result) := by
    rintro ins c k _ rfl
    unfold State.withRange
    rw [State.withSchedule_i]
    split <;> rfl
  cases i
  case ret =>
    simp only [exec, execRet, State.withSchedule_sp]
    by_cases h : s.sp = 0
    · exact ⟨_, if_pos h, if_pos h⟩
    · exact ⟨_, if_neg h, if_neg h⟩
  case call =>
    simp only [exec, execCall, State.withSchedule_sp]
    by_cases h : s.sp = 15
    · exact ⟨_, if_pos h, if_pos h⟩
    · exact ⟨_, if_neg h, if_neg h⟩
  case jp nnn =>
    simp only [exec, execJp, State.withSchedule_pc]
    by_cases h : zextAddr nnn = s.pc
    · exact ⟨_, if_pos h, if_pos h⟩
    · exact ⟨_, if_neg h, if_neg h⟩
  case ldVxK =>
    refine ⟨_, rfl, ?_⟩
    simp only [exec, execLdVxK]
    rw [show (s.withSchedule l).nextKeys = s.nextKeys from rfl]
    cases anyKey s.nextKeys <;> rfl
  case drw => exact ⟨_, rfl, range _ _ _ _ rfl⟩
  case ldB => exact ⟨_, rfl, range _ _ _ _ rfl⟩
  case ldMemVx => exact ⟨_, rfl, range _ _ _ _ rfl⟩
  case ldVxMem => exact ⟨_, rfl, range _ _ _ _ rfl⟩
  all_goals exact ⟨_, rfl, rfl⟩

/-- The instruction agent's step always answers a next state, whatever the schedule script is. -/
theorem instructionStep_withSchedule (s : State) (l : List Agent) :
    ∃ t, instructionStep s = .next t ∧ instructionStep (s.withSchedule l) = .next (t.withSchedule l) := by
  have hf : (s.withSchedule l).fetch = s.fetch := rfl
  unfold instructionStep
  rw [hf]
  cases s.fetch with
  | none => exact ⟨_, rfl, rfl⟩
  | some op =>
    dsimp only
    cases classify op with
    | none => exact ⟨_, rfl, rfl⟩
    | some i => exact exec_withSchedule i s l

/-! ### What one enable does -/

theorem State.onEnable_of_stopped {s : State} (h : s.status ≠ .running) (a : Agent) : s.onEnable a = s := by
  have : ∃ r, noStepReason s = some r := by
    unfold noStepReason
    cases hs : s.status
    · exact absurd hs h
    · exact ⟨_, rfl⟩
    · exact ⟨_, rfl⟩
  obtain ⟨r, hr⟩ := this
  have hr' : noStepReason (s.enable a) = some r := hr
  simp only [State.onEnable, step, hr']

theorem State.stepped_of_stopped {s : State} (h : s.status ≠ .running) : s.stepped = s := by
  unfold State.stepped
  cases hs : step s with
  | next t => exact absurd (step_cases hs).1 h
  | fault r => rfl
  | refused r => rfl

/-- A turn of the timer agent is a tick. -/
theorem State.onEnable_timer {s : State} (h : s.status = .running) :
    s.onEnable .timer = (s.enable .timer).afterAgent.tick := by
  simp only [State.onEnable, step, noStepReason, State.enable_status, h, State.enable_nextAgent]

/-- A turn of the instruction agent is an instruction step. -/
theorem State.onEnable_instruction {s : State} (h : s.status = .running) :
    instructionStep (s.enable .instruction).afterAgent = .next (s.onEnable .instruction) := by
  obtain ⟨t, ht, _⟩ := instructionStep_withSchedule (s.enable .instruction).afterAgent []
  simp only [State.onEnable, step, noStepReason, State.enable_status, h, State.enable_nextAgent, ht]

/-- A turn of the instruction agent on a recognised word runs its instruction. -/
theorem State.onEnable_exec {s : State} {op : Word} {i : Instr} (h : s.status = .running) (hf : s.fetch = some op)
    (hi : classify op = some i) :
    exec i (s.enable .instruction).afterAgent = .next (s.onEnable .instruction) := by
  have hf' : (s.enable .instruction).afterAgent.fetch = some op := hf
  rw [← State.onEnable_instruction h, instructionStep, hf']
  simp only [hi]

/-- Where the script gives the next turn to `a`, the step is the enable of `a`. -/
theorem State.stepped_withSchedule_cons {s : State} (h : s.status = .running) (a : Agent) (l : List Agent) :
    (s.withSchedule (a :: l)).stepped = (s.withSchedule l).onEnable a := by
  have hs : step (s.withSchedule (a :: l)) = .next ((s.withSchedule l).onEnable a) := by
    show step ((s.withSchedule l).enable a) = _
    cases a with
    | instruction =>
      rw [← State.onEnable_instruction (s := s.withSchedule l) h]
      simp [step, noStepReason, h]
    | timer =>
      rw [State.onEnable_timer (s := s.withSchedule l) h]
      simp [step, noStepReason, h]
  simp only [State.stepped, hs]

/-! ### Runs -/

@[simp] theorem runUnder_zero (sched : Schedule) (s : State) : runUnder sched s 0 = s := rfl

theorem runUnder_succ (sched : Schedule) (s : State) (n : Nat) :
    runUnder sched s (n + 1) = (runUnder sched s n).onEnable (sched n) := rfl

/-- A run goes on after its first turn under the rest of the schedule. -/
theorem runUnder_succ_first (sched : Schedule) (s : State) (n : Nat) :
    runUnder sched s (n + 1) = runUnder (fun k => sched (k + 1)) (s.onEnable (sched 0)) n := by
  induction n with
  | zero => rfl
  | succ n ih => rw [runUnder_succ, ih]; rfl

/-- A stopped run stays where it is (R229). -/
theorem runUnder_of_stopped {sched : Schedule} {s : State} {n m : Nat} (hm : n ≤ m)
    (h : (runUnder sched s n).status ≠ .running) : runUnder sched s m = runUnder sched s n := by
  induction m, hm using Nat.le_induction with
  | base => rfl
  | succ m _ ih => rw [runUnder_succ, ih, State.onEnable_of_stopped h]

/-- A running state has had only running states before it. -/
theorem running_of_le {sched : Schedule} {s : State} {n m : Nat} (hm : n ≤ m)
    (h : (runUnder sched s m).status = .running) : (runUnder sched s n).status = .running := by
  by_contra hn
  rw [runUnder_of_stopped hm hn] at h
  exact hn h

end Sys2Proof.Machine
end

