-- ==== Sys2Proof/Tests/Slice0.lean ====
section
/-! SUPPORT. The model's own tests: well-formedness, decoding of words written out from spec/30_encoding.md, single steps
whose expected results are the vectors of spec/95_test_vectors.md (their ids stand in the comments), and a witness for the
hypotheses of every obligation that has some. -/

namespace Sys2Proof.Tests
open Sys2Proof Sys2Proof.Machine

/-! ### Well-formedness refuses ill-formed terms -/

theorem test_rom_of_3585_bytes_is_refused :
    romWellFormed (List.replicate 3585 0) = false ∧ romWellFormed (List.replicate 3584 0) = true := by
  rw [romWellFormed, romWellFormed, List.length_replicate, List.length_replicate]
  decide

theorem test_font_of_79_bytes_is_refused :
    fontWellFormed (Config.font.drop 1) = false ∧ fontWellFormed Config.font = true := by decide

theorem test_shift_with_y_is_not_as_assembled :
    (Instr.shr 1 2).asAssembled = false ∧ (Instr.shl 1 2).asAssembled = false ∧ (Instr.shl 1 0).asAssembled = true := by
  decide

theorem test_reset_refuses_what_is_ill_formed :
    State.reset.applyReset [] (Config.font.drop 1) = none := by decide

/-! ### Decoding: every constructor by a word written out from R92 and R95 -/

/-- T-CLS-1. -/
theorem test_decode_family_0 :
    classify 0b0000000011100000#16 = some .cls ∧ classify 0b0000000011101110#16 = some .ret := by decide

/-- Families 1, 2, A, B: format NNN (T-DEC-4). -/
theorem test_decode_nnn :
    classify 0b0001_1010_1011_1100#16 = some (.jp 0xABC#12) ∧ classify 0b0010_0010_0000_1010#16 = some (.call 0x20A#12) ∧
    classify 0b1010_0010_0000_1110#16 = some (.ldI 0x20E#12) ∧ classify 0b1011_1111_1111_1111#16 = some (.jpV0 0xFFF#12) := by
  decide

/-- Families 3, 4, 6, 7, C: format XKK. -/
theorem test_decode_xkk :
    classify 0b0011_0011_0010_1010#16 = some (.seImm 3 0x2A#8) ∧ classify 0b0100_0011_0010_1010#16 = some (.sneImm 3 0x2A#8) ∧
    classify 0b0110_1010_0010_1111#16 = some (.ldImm 10 0x2F#8) ∧ classify 0b0111_0001_0000_0101#16 = some (.addImm 1 0x05#8) ∧
    classify 0b1100_0011_0000_1111#16 = some (.rnd 3 0x0F#8) := by decide

/-- Families 5, 8, 9: format XY (T-CLS-3, T-CLS-4, T-DEC-2, T-CLS-5). -/
theorem test_decode_xy :
    classify 0b0101_0001_0010_0000#16 = some (.seReg 1 2) ∧ classify 0b1001_1010_1011_0000#16 = some (.sneReg 10 11) ∧
    classify 0b1000_1010_1011_0000#16 = some (.ldReg 10 11) ∧ classify 0b1000_1010_1011_0001#16 = some (.orReg 10 11) ∧
    classify 0b1000_1010_1011_0010#16 = some (.andReg 10 11) ∧ classify 0b1000_1010_1011_0011#16 = some (.xorReg 10 11) ∧
    classify 0b1000_1010_1011_0100#16 = some (.addReg 10 11) ∧ classify 0b1000_1010_1011_0101#16 = some (.subReg 10 11) ∧
    classify 0b1000_1010_1011_0110#16 = some (.shr 10 11) ∧ classify 0b1000_1010_1011_0111#16 = some (.subnReg 10 11) ∧
    classify 0b1000_1010_1011_1110#16 = some (.shl 10 11) := by decide

/-- Family D: format XYN (T-DEC-1). -/
theorem test_decode_xyn : classify 0b1101_0001_0010_1111#16 = some (.drw 1 2 15) := by decide

/-- Families E and F: format X (T-CLS-6, T-CLS-7, T-DEC-3). -/
theorem test_decode_x :
    classify 0b1110_0001_1001_1110#16 = some (.skp 1) ∧ classify 0b1110_0001_1010_0001#16 = some (.sknp 1) ∧
    classify 0b1111_0001_0000_0111#16 = some (.ldVxDt 1) ∧ classify 0b1111_0001_0000_1010#16 = some (.ldVxK 1) ∧
    classify 0b1111_0001_0001_0101#16 = some (.ldDtVx 1) ∧ classify 0b1111_0001_0001_1000#16 = some (.ldStVx 1) ∧
    classify 0b1111_0001_0001_1110#16 = some (.addI 1) ∧ classify 0b1111_0001_0010_1001#16 = some (.ldF 1) ∧
    classify 0b1111_0001_0011_0011#16 = some (.ldB 1) ∧ classify 0b1111_0001_0101_0101#16 = some (.ldMemVx 1) ∧
    classify 0b1111_1001_0110_0101#16 = some (.ldVxMem 9) := by decide

/-- T-CLS-2 to T-CLS-6, T-CLS-8, T-CLS-9. -/
theorem test_unrecognised_words :
    [0x0000#16, 0x00E1#16, 0x00EF#16, 0x0123#16, 0x0FFF#16, 0x00FD#16, 0x00FF#16, 0x00C1#16].all
        (fun w => classify w = none) ∧
    [0x5121#16, 0x512F#16, 0x9AB1#16, 0x8128#16, 0x8129#16, 0x812D#16, 0x812F#16, 0xE19F#16, 0xE1A0#16].all
        (fun w => classify w = none) ∧
    [0xF100#16, 0xF108#16, 0xF11F#16, 0xF130#16, 0xF156#16, 0xF166#16, 0xF175#16, 0xF185#16, 0xF1FF#16].all
        (fun w => classify w = none) := by decide

/-- S10, S11: the decoder on bytes takes the first byte as the high byte and leaves the rest. -/
theorem test_decode_bytes :
    decode [0xD1#8, 0x2F#8, 0x55#8] = .ok (.drw 1 2 15, [0x55#8]) ∧ decode [0x81#8, 0x28#8] = .error (.unrecognised 0x8128#16) ∧
    decodeTableWord 16 0xD12F = some (.drw 1 2 15) := by decide

/-! ### One step -/

/-- Reset with some registers set. -/
def regs (vs : List (Reg × Byte)) : State := vs.foldl (fun s p => s.setReg p.1 p.2) State.reset

/-- The state after the one step that runs the word `w` at the program counter of `s`. -/
def run (s : State) (w : Nat) : Option State :=
  match step (s.withFetchWord 16 w) with
  | .next t => some t
  | .fault _ => none
  | .refused _ => none

/-- Some registers after that step. -/
def runRegs (s : State) (w : Nat) (rs : List Reg) : Option (List Byte) := (run s w).map (fun t => rs.map t.reg)

/-- `pc` after that step. -/
def runPc (s : State) (w : Nat) : Option Word := (run s w).map State.pc

/-- The `status` port after that step. -/
def runStatus (s : State) (w : Nat) : Option (Status × Option ErrorRecord) := (run s w).map State.statusPort

/-- `s` with one byte of memory. -/
def poke (s : State) (a : Nat) (b : Byte) : State := s.setMem (s.mem.write a b)

/-- `s` with the key source's next sample. -/
def keysDown (s : State) (ks : KeySample) : State := s.setInputs { s.inputs with keys := [ks] }

/-- `s` with the agent that moves next. -/
def turn (s : State) (a : Agent) : State := s.setInputs { s.inputs with schedule := [a] }

/-- T-FET-4: an odd fetch. -/
theorem test_odd_fetch :
    let s := (poke (poke State.reset 0x201 0x60) 0x202 0x07).setPc 0x201
    (match step (turn s .instruction) with | .next t => some (t.reg 0, t.pc) | _ => none) = some (7#8, 0x203#16) := by
  decide

/-- T-FET-5: reset with an empty ROM. -/
theorem test_empty_rom_faults :
    (match step (turn State.reset .instruction) with | .next t => some t.statusPort | _ => none) =
      some (.fault, some { kind := .unrecognizedOpcode, pc := 0x200, opcode := some 0, addr := none }) := by decide

/-- The codes of R220's table. -/
theorem test_fatal_codes :
    [FatalKind.unrecognizedOpcode, .stackOverflow, .stackUnderflow, .memRange].map fatalCode = [1, 2, 3, 4] := by decide

/-- T-FET-3. -/
theorem test_fetch_at_4095_faults :
    (match step (turn (State.reset.setPc 4095) .instruction) with | .next t => some t.statusPort | _ => none) =
      some (.fault, some { kind := .memRange, pc := 4095, opcode := none, addr := some 4095 }) := by decide

/-- T-TMR-5, T-TMR-8. -/
theorem test_tick :
    (match step (turn ((State.reset.setDt 255).setSt 2) .timer) with | .next t => some (t.dt, t.st) | _ => none) =
        some (254#8, 1#8) ∧
    (match step (turn (State.reset.setStatus .halted) .timer) with | .fault r => some r | _ => none) =
        some .runHalted := by decide

/-- T-JP-1. -/
theorem test_jp : runPc State.reset 0x1ABC = some 0xABC#16 := by decide

/-- T-JP-2, S8a. -/
theorem test_jp_self_halts :
    runStatus State.reset 0x1200 = some (.halted, none) ∧
    runStatus (State.reset.setPc 0x20C) 0x120C = some (.halted, none) := by decide

/-- T-CALL-2. -/
theorem test_call :
    (run ((State.reset.setSp 14).setPc 0x250) 0x2300).map (fun t => (t.sp, t.slot 15, t.pc)) =
      some (15, 0x252#16, 0x300#16) := by decide

/-- T-CALL-3. -/
theorem test_call_overflow :
    runStatus ((State.reset.setSp 15).setPc 0x250) 0x2300 =
      some (.fault, some { kind := .stackOverflow, pc := 0x250, opcode := some 0x2300, addr := none }) := by decide

/-- T-RET-1. -/
theorem test_ret :
    (run (((State.reset.setSp 1).setSlot 1 0x206).setPc 0x20C) 0x00EE).map (fun t => (t.pc, t.sp, t.slot 1)) =
      some (0x206#16, 0, 0x206#16) := by decide

/-- T-RET-2. -/
theorem test_ret_underflow :
    runStatus State.reset 0x00EE =
      some (.fault, some { kind := .stackUnderflow, pc := 0x200, opcode := some 0x00EE, addr := none }) := by decide

/-- T-JPV0-2, T-JPV0-3. -/
theorem test_jp_v0 :
    runPc (regs [(0, 0xFF)]) 0xBFFF = some 0x10FE#16 ∧ runStatus State.reset 0xB200 = some (.running, none) := by decide

/-- T-SE-1, T-SE-2. -/
theorem test_se_imm :
    runPc (regs [(3, 0x2A)]) 0x332A = some 0x204#16 ∧ runPc (regs [(3, 0x2B)]) 0x332A = some 0x202#16 := by decide

/-- T-SNE-1, T-SNE-2. -/
theorem test_sne_imm :
    runPc (regs [(3, 0x2A)]) 0x432A = some 0x202#16 ∧ runPc (regs [(3, 0x2B)]) 0x432A = some 0x204#16 := by decide

/-- T-SEXY-1. -/
theorem test_se_reg :
    runPc (regs [(1, 7), (2, 7)]) 0x5120 = some 0x204#16 ∧ runPc (regs [(1, 7)]) 0x5120 = some 0x202#16 := by decide

/-- T-SNEXY-1, T-SNEXY-2. -/
theorem test_sne_reg :
    runPc (regs [(1, 7), (2, 8)]) 0x9120 = some 0x204#16 ∧ runPc (regs [(4, 9)]) 0x9440 = some 0x202#16 := by decide

/-- T-LD-1, T-LD-2. -/
theorem test_ld_reg :
    runRegs (regs [(2, 0x5A)]) 0x8120 [1, 2] = some [0x5A#8, 0x5A#8] ∧
    runRegs (regs [(2, 0x5A)]) 0x8F20 [15] = some [0x5A#8] := by decide

/-- T-OR-1. -/
theorem test_or : runRegs (regs [(1, 0xF0), (2, 0x0F), (15, 1)]) 0x8121 [1, 15] = some [0xFF#8, 1#8] := by decide

/-- T-AND-1. -/
theorem test_and : runRegs (regs [(1, 0xF0), (2, 0x3C)]) 0x8122 [1, 15] = some [0x30#8, 0#8] := by decide

/-- T-XOR-1. -/
theorem test_xor : runRegs (regs [(1, 0xF0), (2, 0x3C)]) 0x8123 [1, 15] = some [0xCC#8, 0#8] := by decide

/-- S2a, T-ADD-2. -/
theorem test_add :
    runRegs (regs [(1, 250), (2, 10)]) 0x8124 [1, 15] = some [4#8, 1#8] ∧
    runRegs (regs [(1, 255), (2, 0)]) 0x8124 [1, 15] = some [255#8, 0#8] := by decide

/-- T-ADD-4, T-ADD-5. -/
theorem test_add_vf :
    runRegs (regs [(15, 200), (1, 100)]) 0x8F14 [15] = some [1#8] ∧
    runRegs (regs [(15, 1), (1, 255)]) 0x81F4 [1, 15] = some [0#8, 1#8] := by decide

/-- S3a, T-SUB-1. -/
theorem test_sub :
    runRegs (regs [(1, 5), (2, 10)]) 0x8125 [1, 15] = some [251#8, 0#8] ∧
    runRegs (regs [(1, 7), (2, 7)]) 0x8125 [1, 15] = some [0#8, 1#8] := by decide

/-- T-SUB-3, T-SUB-4. -/
theorem test_sub_vf :
    runRegs (regs [(15, 3), (1, 5)]) 0x8F15 [15] = some [0#8] ∧
    runRegs (regs [(15, 3), (1, 5)]) 0x81F5 [1, 15] = some [2#8, 1#8] := by decide

/-- T-SUBN-1, T-SUBN-2. -/
theorem test_subn :
    runRegs (regs [(1, 5), (2, 10)]) 0x8127 [1, 15] = some [5#8, 1#8] ∧
    runRegs (regs [(1, 10), (2, 5)]) 0x8127 [1, 15] = some [251#8, 0#8] := by decide

/-- T-SHR-1, T-SHR-4. -/
theorem test_shr :
    runRegs (regs [(1, 5), (2, 0xFF)]) 0x8126 [1, 15, 2] = some [2#8, 1#8, 0xFF#8] ∧
    runRegs (regs [(15, 3)]) 0x8F06 [15] = some [1#8] := by decide

/-- S4a, T-SHL-4. -/
theorem test_shl :
    runRegs (regs [(1, 129)]) 0x810E [1, 15] = some [2#8, 1#8] ∧
    runRegs (regs [(1, 0x41), (2, 0xFF)]) 0x812E [1, 15, 2] = some [0x82#8, 0#8, 0xFF#8] := by decide

/-- T-FET-1, T-LDI-2. -/
theorem test_ld_imm :
    runRegs State.reset 0x6A2F [10] = some [0x2F#8] ∧ runRegs State.reset 0x6FFF [15] = some [0xFF#8] := by decide

/-- T-ADDI-1, T-ADDI-2. -/
theorem test_add_imm :
    runRegs (regs [(1, 0xFE)]) 0x7105 [1, 15] = some [3#8, 0#8] ∧
    runRegs (regs [(1, 0xFF), (15, 1)]) 0x7101 [1, 15] = some [0#8, 1#8] := by decide

/-- T-LDIX-2. -/
theorem test_ld_i : (run State.reset 0xAFFF).map State.i = some 0xFFF#16 := by decide

/-- T-ADDIX-2, T-ADDIX-4. -/
theorem test_add_i :
    (run ((regs [(2, 1)]).setI 0xFFF) 0xF21E).map (fun t => (t.i, t.reg 15)) = some (0x1000#16, 0#8) ∧
    (run ((regs [(2, 0xFF)]).setI 0xFF80) 0xF21E).map State.i = some 0x7F#16 := by decide

/-- T-RND-1. -/
theorem test_rnd :
    runRegs (State.reset.setInputs { Inputs.fresh with rand := [0xB7] }) 0xC30F [3] = some [7#8] := by decide

/-- T-CLSI-1. -/
theorem test_cls :
    (run ((regs [(15, 1)]).setFb (Framebuffer.blank.toggle 3 4)) 0x00E0).map (fun t => (t.pixel 3 4, t.reg 15)) =
      some (false, 1#8) := by decide

/-- T-DRW-3: wrap-around in both directions, most significant bit leftmost. -/
theorem test_drw_wraps :
    (run ((poke (poke (regs [(0, 63), (1, 31)]) 0x300 0xC0) 0x301 0x80).setI 0x300) 0xD012).map
      (fun t => ([t.pixel 31 63, t.pixel 31 0, t.pixel 0 63, t.pixel 0 0, t.pixel 31 62], t.reg 15)) =
    some ([true, true, true, false, false], 0#8) := by decide

/-- T-DRW-5, T-DRW-9. -/
theorem test_drw_collides_and_faults :
    (run ((poke (State.reset.setFb (Framebuffer.blank.toggle 0 0)) 0x300 0x80).setI 0x300) 0xD011).map
        (fun t => (t.pixel 0 0, t.reg 15)) = some (false, 1#8) ∧
    runStatus (State.reset.setI 4095) 0xD012 =
      some (.fault, some { kind := .memRange, pc := 0x200, opcode := some 0xD012, addr := some 4096 }) := by decide

/-- T-SKP-1, T-SKP-3. -/
theorem test_skp :
    runPc (keysDown (regs [(2, 5)]) [5]) 0xE29E = some 0x204#16 ∧
    runPc (keysDown (regs [(2, 0x15)]) [5]) 0xE29E = some 0x202#16 := by decide

/-- T-SKNP-1, T-SKNP-3. -/
theorem test_sknp :
    runPc (keysDown (regs [(2, 5)]) [5]) 0xE2A1 = some 0x202#16 ∧
    runPc (keysDown (regs [(2, 0x15)]) (List.finRange 16)) 0xE2A1 = some 0x204#16 := by decide

/-- T-LDK-1, T-LDK-2. -/
theorem test_ld_k :
    (run (keysDown ((regs [(3, 9)]).setPc 0x210) []) 0xF30A).map (fun t => (t.reg 3, t.pc, t.status)) =
        some (9#8, 0x210#16, .running) ∧
    (run (keysDown ((regs [(3, 9)]).setPc 0x210) [0xA]) 0xF30A).map (fun t => (t.reg 3, t.pc)) =
        some (0xA#8, 0x212#16) := by decide

/-- T-TMR-1. -/
theorem test_ld_vx_dt : runRegs (State.reset.setDt 0x2C) 0xF407 [4] = some [0x2C#8] := by decide

/-- T-TMR-2. -/
theorem test_ld_dt_vx : (run (regs [(4, 60)]) 0xF415).map (fun t => (t.dt, t.st)) = some (60#8, 0#8) := by decide

/-- T-TMR-3. -/
theorem test_ld_st_vx : (run (regs [(4, 8)]) 0xF418).map (fun t => (t.dt, t.st)) = some (0#8, 8#8) := by decide

/-- T-FNT-2, T-FNT-3. -/
theorem test_ld_f :
    (run (regs [(2, 0x0F)]) 0xF229).map State.i = some 75#16 ∧ (run (regs [(2, 0x1A)]) 0xF229).map State.i = some 50#16 := by
  decide

/-- T-BCD-1, and the out-of-range form of P6. -/
theorem test_ld_b :
    (run ((regs [(0, 254)]).setI 0x300) 0xF033).map (fun t => t.mem.readBytes 0x2FF 5) =
        some [0#8, 2#8, 5#8, 4#8, 0#8] ∧
    (run ((State.reset.setI 0xFFF).setPc 0x202) 0xF033).map (fun t => (t.statusPort, t.readByte 4095)) =
      some ((.fault, some { kind := .memRange, pc := 0x202, opcode := some 0xF033, addr := some 4096 }), 0#8) := by decide

/-- T-DMP-1, T-DMP-4. -/
theorem test_dump :
    (run ((regs [(0, 1), (1, 2), (2, 3), (3, 9)]).setI 0x400) 0xF255).map (fun t => (t.mem.readBytes 0x400 4, t.i)) =
        some ([1#8, 2#8, 3#8, 0#8], 0x400#16) ∧
    runStatus (State.reset.setI 4081) 0xFF55 =
      some (.fault, some { kind := .memRange, pc := 0x200, opcode := some 0xFF55, addr := some 4096 }) := by decide

/-- T-LOD-1. -/
theorem test_load :
    (run ((poke (poke (poke (regs [(3, 9)]) 0x300 2) 0x301 5) 0x302 4).setI 0x300) 0xF265).map
      (fun t => ([t.reg 0, t.reg 1, t.reg 2, t.reg 3], t.i)) = some ([2#8, 5#8, 4#8, 9#8], 0x300#16) := by decide

/-- T-RST-1. -/
theorem test_reset_image :
    (State.reset.applyReset [0x12, 0x00] Config.font).map
      (fun t => ([0, 4, 5, 79, 80, 0x1FF, 0x200, 0x201].map t.readByte, t.pc, t.status)) =
    some ([0xF0#8, 0xF0#8, 0x20#8, 0x80#8, 0#8, 0#8, 0x12#8, 0#8], 0x200#16, .running) := by decide

/-! ### Witnesses: the hypotheses of the obligations can be met -/

theorem test_witness_EncodeOfClassifiedWordIsTheWord : classify 0x812E#16 = some (.shl 1 2) := by decide

theorem test_witness_StepRunsTheDecodedInstruction :
    ∃ (s : State) (i : Instr), instructionTurn s ∧ s.pc.toNat ≤ 4094 ∧
      decode [s.readByte s.pc.toNat, s.readByte (s.pc.toNat + 1)] = .ok (i, []) :=
  ⟨(State.reset.setPc 4094).withFetchWord 16 0x6A2F, .ldImm 10 0x2F, ⟨rfl, rfl⟩, by decide, by decide⟩

theorem test_witness_StoppedMachineTakesNoStep :
    (State.reset.setStatus .halted).status ≠ .running ∧ (State.reset.setStatus .fault).status ≠ .running ∧
    (State.reset.setStatus .halted).applyReset [] Config.font = some State.reset := by decide

theorem test_witness_FetchIsBigEndianAndRangeChecked :
    (State.reset.setPc 4094).pc.toNat ≤ 4094 ∧
    instructionTurn (turn (State.reset.setPc 4095) .instruction) ∧ 4094 < (State.reset.setPc 4095).pc.toNat :=
  ⟨by decide, ⟨rfl, rfl⟩, by decide⟩

theorem test_witness_UnrecognisedWordRaises :
    ∃ (s : State) (op : Word), instructionTurn s ∧ s.fetch = some op ∧ classify op = none :=
  ⟨State.reset.withFetchWord 16 0x8128, 0x8128, ⟨rfl, rfl⟩, by decide, by decide⟩

theorem test_witness_TickCountsBothTimersDown :
    (turn State.reset .timer).status = .running ∧ (turn State.reset .timer).nextAgent = .timer ∧
    (State.reset.setStatus .fault).status ≠ .running := by decide

theorem test_witness_TicksCommuteWithTimerFreeInstructions :
    touchesTimers (.drw 0 1 5) = false ∧ touchesTimers (.ldVxK 3) = false := by decide

theorem test_witness_JumpToSelfHaltsElseJumps :
    (0x200#12).toNat = State.reset.pc.toNat ∧ (0x201#12).toNat ≠ State.reset.pc.toNat ∧
    (0x200#12).toNat ≠ (State.reset.setPc 0x1200).pc.toNat := by decide

theorem test_witness_CallPushesReturnAddress :
    (State.reset.setSp 14).sp.val < 15 ∧ State.reset.sp.val < 15 := by decide

theorem test_witness_StackBoundsRaise : (State.reset.setSp 15).sp.val = 15 ∧ State.reset.sp.val = 0 := by decide

theorem test_witness_ReturnPopsThePc : (State.reset.setSp 1).sp.val ≠ 0 ∧ State.reset.sp.val = 0 := by decide

theorem test_witness_ReturnComesBackToAfterTheCall :
    State.reset.sp.val < 15 ∧
    ∃ t u : State, exec (.call 0x300) State.reset = .next t ∧ u.sp = t.sp ∧ u.slot t.sp = t.slot t.sp :=
  ⟨by decide, _, _, rfl, rfl, rfl⟩

theorem test_witness_RandomByteIsMasked :
    (State.reset.setInputs { Inputs.fresh with rand := [0xB7] }).inputs.rand = 0xB7 :: [] := rfl

theorem test_witness_DrawInvertsExactlyTheSprite :
    (15 : Fin 16).val ≠ 0 ∧ (State.reset.setI 4081).i.toNat + ((15 : Fin 16).val - 1) ≤ 4095 ∧
    ((0 : Fin 16).val = 0 ∨ (State.reset.setI 0xFFFF).i.toNat + ((0 : Fin 16).val - 1) ≤ 4095) := by decide

/-- A set pixel and a clear pixel under the sprite, and a pixel it does not cover. -/
theorem test_witness_spriteCovers :
    ∃ s : State, s.i.toNat + ((1 : Fin 16).val - 1) ≤ 4095 ∧ spriteCovers s 0 0 1 0 0 ∧ s.pixel 0 0 = true ∧
      spriteCovers s 0 0 1 0 1 ∧ s.pixel 0 1 = false ∧ ¬ spriteCovers s 0 0 1 1 0 := by
  refine ⟨State.reset.setFb (Framebuffer.blank.toggle 0 0), by decide, ⟨0, 0, by decide⟩, by decide, ⟨0, 1, by decide⟩,
    by decide, ?_⟩
  rintro ⟨row, col, h, _, hr, _⟩
  obtain rfl : row = 0 := by omega
  exact absurd hr (by decide)

/-- The second draw of DrawingTwiceRestoresTheScreen runs at unchanged coordinates, and a blank sprite covers nothing. -/
theorem test_witness_DrawingTwiceRestoresTheScreen :
    ∃ t, exec (.drw 0 1 5) State.reset = .next t ∧ (t.reg 0).toNat % 64 = (State.reset.reg 0).toNat % 64 ∧
      (t.reg 1).toNat % 32 = (State.reset.reg 1).toNat % 32 ∧ ∀ r c, ¬ spriteCovers State.reset 0 1 0 r c :=
  ⟨_, rfl, by decide, by decide, by rintro r c ⟨row, _, h, _⟩; omega⟩

theorem test_witness_KeyQueriesAgree : anyKey [5, 2] = some 5 ∧ 15 < (16#8).toNat := by decide

theorem test_witness_KeySkipsFollowTheSample :
    (∃ key ∈ (keysDown (regs [(2, 15)]) [15]).nextKeys, key.val = ((keysDown (regs [(2, 15)]) [15]).reg 2).toNat) ∧
    ¬ ∃ key ∈ (keysDown (regs [(2, 16)]) [0]).nextKeys, key.val = ((keysDown (regs [(2, 16)]) [0]).reg 2).toNat := by
  decide

theorem test_witness_KeyWaitLoadsOrRepeats :
    (keysDown State.reset [15]).nextKeys = 15 :: [] ∧ (keysDown State.reset []).nextKeys = [] := by decide

/-- Below, at and above the last address in range. -/
theorem test_witness_BcdStoresThreeDigits :
    State.reset.mem.wf ∧ (State.reset.setI 4093).i.toNat + 2 ≤ 4095 ∧ 4095 < (State.reset.setI 4094).i.toNat + 2 ∧
    4095 < (State.reset.setI 4096).i.toNat := by decide

theorem test_witness_RegisterDumpStoresUpToX :
    State.reset.mem.wf ∧ (State.reset.setI 4080).i.toNat + (15 : Reg).val ≤ 4095 ∧
    (State.reset.setI 4095).i.toNat + (0 : Reg).val ≤ 4095 := by decide

theorem test_witness_RegisterLoadReadsUpToX :
    (State.reset.setI 4080).i.toNat + (15 : Reg).val ≤ 4095 ∧
    (State.reset.setI 4095).i.toNat + (0 : Reg).val ≤ 4095 := by decide

theorem test_witness_LoadAfterDumpRestoresRegisters :
    (State.reset.setI 4080).mem.wf ∧ (State.reset.setI 4080).i.toNat + (15 : Reg).val ≤ 4095 ∧
    ∃ t u : State, exec (.ldMemVx 15) (State.reset.setI 4080) = .next t ∧ u.i = t.i ∧
      ∀ a, u.readByte a = t.readByte a :=
  ⟨by decide, by decide, _, _, rfl, rfl, fun _ => rfl⟩

theorem test_witness_DataRangeFaultsWriteNothing :
    (1 : Fin 16).val ≠ 0 ∧ 4095 < (State.reset.setI 4096).i.toNat + ((1 : Fin 16).val - 1) ∧
    4095 < (State.reset.setI 4095).i.toNat + ((2 : Fin 16).val - 1) ∧
    4095 < (State.reset.setI 4081).i.toNat + (15 : Reg).val := by decide

theorem test_witness_StoredWordIsFetchedNext :
    ∃ (s : State) (x j k : Reg), s.mem.wf ∧ s.i.toNat + x.val ≤ 4095 ∧ k.val = j.val + 1 ∧ k.val ≤ x.val ∧
      s.i.toNat + j.val = s.pc.toNat + 2 :=
  ⟨State.reset.setI 0x202, 1, 0, 1, by decide⟩

/-- A transition into `FAULT` of each of the four kinds, with a record. -/
theorem test_witness_FaultRecordsFollowTheTable :
    runStatus State.reset 0x8128 =
        some (.fault, some { kind := .unrecognizedOpcode, pc := 0x200, opcode := some 0x8128, addr := none }) ∧
    (runStatus (State.reset.setSp 15) 0x2300).map Prod.fst = some .fault ∧
    (runStatus State.reset 0x00EE).map Prod.fst = some .fault ∧
    runStatus (State.reset.setI 4096) 0xF065 =
        some (.fault, some { kind := .memRange, pc := 0x200, opcode := some 0xF065, addr := some 4096 }) := by decide

theorem test_witness_FaultEntryWritesStatusAndRecordOnly :
    ∃ s t : State, step s = .next t ∧ t.status = .fault :=
  ⟨State.reset.withFetchWord 16 0x00EE, _, rfl, rfl⟩

theorem test_witness_EveryInstructionWritesOnlyItsOwn :
    State.reset.status = .running ∧
    (∃ t, exec (.addReg 1 2) State.reset = .next t ∧ t.status ≠ .fault) ∧
    ∃ t, exec .ret State.reset = .next t ∧ t.status = .fault :=
  ⟨rfl, ⟨_, rfl, by decide⟩, ⟨_, rfl, by decide⟩⟩

theorem test_witness_OtherInstructionsAdvanceByTwo :
    ownsPc (.ldB 0) = false ∧ State.reset.status = .running ∧ (∃ t, exec (.ldB 0) State.reset = .next t) ∧
    ∃ t, exec (.ldB 0) (State.reset.setI 4094) = .next t :=
  ⟨rfl, rfl, ⟨_, rfl⟩, ⟨_, rfl⟩⟩

theorem test_reset_meets_the_invariant : State.reset.Inv :=
  ⟨by decide, by decide, by decide, by decide, by decide, by decide⟩

theorem test_witness_StepKeepsTheInvariant : ∃ s t : State, s.Inv ∧ step s = .next t :=
  ⟨turn State.reset .timer, _,
    ⟨by decide, by decide, by decide, by decide, by decide, by decide⟩, rfl⟩

theorem test_witness_ResetMeetsTheInvariant :
    ∃ t, (State.reset.setStatus .fault).applyReset [0x12, 0x00] Config.font = some t := ⟨_, rfl⟩

theorem test_witness_ResetEstablishesTheImage :
    (List.replicate 3584 (0xAA : Byte)).length ≤ 3584 ∧ ([] : List Byte).length ≤ 3584 ∧ Config.font.length = 80 := by
  refine ⟨by rw [List.length_replicate], by decide, by decide⟩

/-! ### Witnesses: schedules and runs -/

/-- The two agents by turns. -/
def alternate : Schedule := fun n => if n % 2 = 0 then .instruction else .timer

theorem test_alternate_is_weaklyFair (s : State) : weaklyFair alternate s := by
  intro a n _
  cases a
  · exact ⟨2 * n, by omega, by simp [alternate]⟩
  · exact ⟨2 * n + 1, by omega, by simp [alternate]⟩

/-- A schedule that postpones the timer agent for ever is not fair to a run that goes on for ever. -/
theorem test_instructions_alone_are_not_weaklyFair (s : State)
    (h : ∀ n, (runUnder (fun _ => .instruction) s n).status = .running) : ¬ weaklyFair (fun _ => .instruction) s := by
  intro hf
  obtain ⟨_, _, e⟩ := hf .timer 0 (fun m _ => h m)
  cases e

/-- T-JPV0-3: `JP V0, 0x200` at 0x200 with `V[0] = 0`, which loops for ever, and a delay timer that runs. -/
def spinning : State := (poke (poke State.reset 0x200 0xB2) 0x201 0x00).setDt 5

theorem test_spinning_spins (sched : Schedule) (n : Nat) :
    (runUnder sched spinning n).status = .running ∧ (runUnder sched spinning n).fetch = some 0xB200#16 := by
  suffices h : (runUnder sched spinning n).status = .running ∧ (runUnder sched spinning n).pc = 0x200 ∧
      (runUnder sched spinning n).mem = spinning.mem ∧ (runUnder sched spinning n).v = spinning.v by
    obtain ⟨hr, hpc, hm, _⟩ := h
    refine ⟨hr, ?_⟩
    rw [State.fetch, State.readByte, State.readByte, hpc, hm]
    decide
  induction n with
  | zero => exact ⟨rfl, rfl, rfl, rfl⟩
  | succ n ih =>
    obtain ⟨hr, hpc, hm, hv⟩ := ih
    rw [runUnder_succ]
    cases sched n with
    | timer => rw [State.onEnable_timer hr]; exact ⟨hr, hpc, hm, hv⟩
    | instruction =>
      have hf : (runUnder sched spinning n).fetch = some 0xB200#16 := by
        rw [State.fetch, State.readByte, State.readByte, hpc, hm]
        decide
      have he := State.onEnable_exec (i := .jpV0 0x200) hr hf (by decide)
      simp only [exec, execJpV0, Host.Outcome.next.injEq] at he
      rw [← he]
      refine ⟨hr, ?_, hm, hv⟩
      show jumpTarget _ ((runUnder sched spinning n).v[0]) = _
      rw [hv]
      decide

theorem test_witness_FairSchedulesRunTheDelayTimerOut :
    weaklyFair alternate spinning ∧ spinning.dt = 5 ∧
    ∀ n x, (runUnder alternate spinning n).fetch ≠ some (encode (.ldDtVx x)) := by
  refine ⟨test_alternate_is_weaklyFair _, rfl, fun n x => ?_⟩
  rw [(test_spinning_spins alternate n).2]
  revert x
  decide

/-- The loop of P4 at 0x204. -/
def polling : State :=
  ((State.reset.setMem (State.reset.mem.writeBytes 0x204 [0xF1, 0x07, 0x31, 0x00, 0x12, 0x04])).setPc 0x204).setDt 3

theorem test_witness_DelayLoopEndsUnderFairnessOnly :
    polling.status = .running ∧ polling.pollsDelayTimerAt 0x204 1 ∧ polling.pc.toNat = (0x204#12).toNat ∧
    polling.dt ≠ 0 ∧ weaklyFair alternate polling :=
  ⟨rfl, ⟨by decide, by decide, by decide, by decide⟩, by decide, by decide, test_alternate_is_weaklyFair _⟩

/-- The last address the loop may stand at, and the two starving schedules. -/
theorem test_witness_DelayLoopEndsUnderFairnessOnly_boundary :
    (State.reset.setMem (State.reset.mem.writeBytes 4090 [0xFF, 0x07, 0x3F, 0x00, 0x1F, 0xFA])).pollsDelayTimerAt 4090 15 ∧
    (∀ n, (fun _ => .instruction : Schedule) n = .instruction) ∧ ∀ n, (fun _ => .timer : Schedule) n = .timer :=
  ⟨⟨by decide, by decide, by decide, by decide⟩, fun _ => rfl, fun _ => rfl⟩

theorem test_witness_TimerBlindRunsIgnoreTheInterleaving :
    instructionTurns (fun _ => .instruction) 2 = instructionTurns alternate 4 ∧
    ∀ k, k < 2 → ∀ x, (runUnder (fun _ => .instruction) spinning k).fetch ≠ some (encode (.ldVxDt x)) := by
  refine ⟨by decide, fun k _ x => ?_⟩
  rw [(test_spinning_spins _ k).2]
  revert x
  decide

end Sys2Proof.Tests
end

namespace Sys2Proof.Machine

/-! ### The invariant of reachable states: one rule per update of a part that it reads -/

/-- The invariant reads memory, the stack, `STATUS`, `ERR` and `pc`, and nothing else. -/
theorem State.Inv.of_kept {s t : State} (hs : s.Inv) (hmem : t.mem = s.mem) (hstack : t.stack = s.stack)
    (hstatus : t.status = s.status) (herr : t.err = s.err) (hpc : t.pc = s.pc) : t.Inv where
  memory := hmem ▸ hs.memory
  errIff := by rw [hstatus, herr]; exact hs.errIff
  errPc := by rw [herr, hpc]; exact hs.errPc
  pcBound := hpc ▸ hs.pcBound
  slots k := by rw [State.slot_congr hstack]; exact hs.slots k
  slot0 := by rw [State.slot_congr hstack]; exact hs.slot0

theorem State.Inv.err_eq_none {s : State} (hs : s.Inv) (hr : s.status = .running) : s.err = none := by
  have hns : ¬ s.err.isSome = true := fun h => by simpa [hr] using hs.errIff.mpr h
  simpa using hns

theorem State.Inv.setPc {s : State} (hs : s.Inv) (hr : s.status = .running) {w : Word} (hw : w.toNat ≤ 4350) :
    (s.setPc w).Inv where
  memory := hs.memory
  errIff := hs.errIff
  errPc e he := by simp [hs.err_eq_none hr] at he
  pcBound := hw
  slots := hs.slots
  slot0 := hs.slot0

theorem State.Inv.advance {s : State} (hs : s.Inv) (hr : s.status = .running) (hpc : s.pc.toNat ≤ 4094) :
    s.advance.Inv :=
  hs.setPc hr (by bv_omega)

theorem State.Inv.skipIf {s : State} (hs : s.Inv) (hr : s.status = .running) (hpc : s.pc.toNat ≤ 4094) (c : Bool) :
    (s.skipIf c).Inv :=
  hs.setPc hr (by split <;> bv_omega)

theorem State.Inv.setMem {s : State} (hs : s.Inv) {m : Memory} (hm : m.wf) : (s.setMem m).Inv where
  memory := hm
  errIff := hs.errIff
  errPc := hs.errPc
  pcBound := hs.pcBound
  slots := hs.slots
  slot0 := hs.slot0

theorem State.Inv.setSlot {s : State} (hs : s.Inv) {k : Fin 16} {w : Word} (hk : k ≠ 0) (hw : w.toNat ≤ 4096) :
    (s.setSlot k w).Inv where
  memory := hs.memory
  errIff := hs.errIff
  errPc := hs.errPc
  pcBound := hs.pcBound
  slots j := by
    rw [State.slot_setSlot]
    split
    · exact hw
    · exact hs.slots j
  slot0 := by rw [State.slot_setSlot, if_neg hk, hs.slot0]

/-- Fault entry gives `STATUS` and `ERR` together, and the record names `pc` (R227, R228). -/
theorem State.Inv.raise {s : State} (hs : s.Inv) (kind : FatalKind) (opcode : Option Word) (addr : Option Nat) :
    (s.raise kind opcode addr).Inv where
  memory := hs.memory
  errIff := iff_of_true rfl rfl
  errPc e he := by cases he; rfl
  pcBound := hs.pcBound
  slots := hs.slots
  slot0 := hs.slot0

theorem State.Inv.halt {s : State} (hs : s.Inv) (hr : s.status = .running) : s.halt.Inv where
  memory := hs.memory
  errIff := by
    have herr : s.halt.err = none := hs.err_eq_none hr
    rw [herr]
    exact iff_of_false Status.noConfusion Bool.noConfusion
  errPc := hs.errPc
  pcBound := hs.pcBound
  slots := hs.slots
  slot0 := hs.slot0

/-- A range-checked instruction keeps the invariant if its accesses do where all of them are inside `MEM` (R66). -/
theorem State.Inv.withRange {s k : State} (hs : s.Inv) (ins : Instr) (count : Nat)
    (hk : (count = 0 ∨ s.i.toNat + (count - 1) ≤ 4095) → k.Inv) : (s.withRange ins count k).Inv := by
  rcases s.withRange_cases ins count k with ⟨hin, e⟩ | ⟨_, _, e⟩
  · rw [e]; exact hk hin
  · rw [e]; exact hs.raise _ _ _

/-- A checked store of a byte list at `I` keeps the invariant. -/
theorem State.Inv.store {s : State} (hs : s.Inv) (hr : s.status = .running) (hpc : s.pc.toNat ≤ 4094) (ins : Instr)
    (xs : List Byte) : (s.withRange ins xs.length (s.setMem (s.mem.writeBytes s.i.toNat xs)).advance).Inv := by
  refine hs.withRange ins _ fun hin => State.Inv.advance ?_ hr hpc
  cases xs with
  | nil => exact hs
  | cons x xs =>
    have hend : s.i.toNat + (x :: xs).length ≤ Config.memSize := by
      simp [Config.memSize] at hin ⊢
      omega
    exact hs.setMem (Memory.wf_writeBytes _ _ _ hs.memory hend)

/-! ### Every instruction keeps the invariant -/

theorem jumpTarget_le (nnn : Addr12) (v0 : Byte) : (jumpTarget nnn v0).toNat ≤ 4350 := by
  rw [jumpTarget_toNat]
  omega

theorem zextAddr_le (nnn : Addr12) : (zextAddr nnn).toNat ≤ 4350 := by
  rw [zextAddr_toNat]
  omega

theorem execJp_keeps_inv {nnn : Addr12} {s t : State} (hs : s.Inv) (hr : s.status = .running)
    (h : execJp nnn s = .next t) : t.Inv := by
  unfold execJp at h
  split at h <;> cases h
  · exact hs.halt hr
  · exact hs.setPc hr (zextAddr_le nnn)

/-- The push goes to slot `SP + 1`, which is not slot 0 as `SP` is not 15, and stores at most 4096. -/
theorem execCall_keeps_inv {nnn : Addr12} {s t : State} (hs : s.Inv) (hr : s.status = .running)
    (hpc : s.pc.toNat ≤ 4094) (h : execCall nnn s = .next t) : t.Inv := by
  unfold execCall at h
  split at h <;> cases h
  · exact hs.raise _ _ _
  · next hsp =>
    have hslot : s.sp + 1 ≠ 0 := by omega
    have hret : (s.pc + 2).toNat ≤ 4096 := by bv_omega
    have hSp : (s.setSp (s.sp + 1)).Inv := hs.of_kept rfl rfl rfl rfl rfl
    exact (hSp.setSlot hslot hret).setPc hr (zextAddr_le nnn)

theorem execRet_keeps_inv {s t : State} (hs : s.Inv) (hr : s.status = .running) (h : execRet s = .next t) : t.Inv := by
  unfold execRet at h
  split at h <;> cases h
  · exact hs.raise _ _ _
  · have hpop : (s.slot s.sp).toNat ≤ 4350 := (hs.slots s.sp).trans (by decide)
    exact (hs.setPc hr hpop).of_kept rfl rfl rfl rfl rfl

theorem execLdVxK_keeps_inv {x : Reg} {s t : State} (hs : s.Inv) (hr : s.status = .running) (hpc : s.pc.toNat ≤ 4094)
    (h : execLdVxK x s = .next t) : t.Inv := by
  unfold execLdVxK at h
  split at h <;> cases h
  · exact State.Inv.advance (hs.of_kept rfl rfl rfl rfl rfl) hr hpc
  · exact hs.of_kept rfl rfl rfl rfl rfl

theorem exec_keeps_inv {i : Instr} {s t : State} (hs : s.Inv) (hr : s.status = .running) (hpc : s.pc.toNat ≤ 4094)
    (h : exec i s = .next t) : t.Inv := by
  cases i
  case ret => exact execRet_keeps_inv hs hr h
  case jp => exact execJp_keeps_inv hs hr h
  case call => exact execCall_keeps_inv hs hr hpc h
  case jpV0 => cases h; exact hs.setPc hr (jumpTarget_le _ _)
  case ldVxK => exact execLdVxK_keeps_inv hs hr hpc h
  case ldB => cases h; exact hs.store hr hpc _ (decimalDigits _)
  case ldMemVx x =>
    cases h
    rw [← s.length_regsUpTo x]
    exact hs.store hr hpc _ _
  case drw | ldVxMem =>
    cases h
    exact hs.withRange _ _ fun _ => State.Inv.advance (hs.of_kept rfl rfl rfl rfl rfl) hr hpc
  case seImm | sneImm | seReg | sneReg => cases h; exact hs.skipIf hr hpc _
  case skp | sknp =>
    cases h
    have hkeys : s.afterKeys.Inv := hs.of_kept rfl rfl rfl rfl rfl
    exact hkeys.skipIf hr hpc _
  all_goals
    cases h
    exact State.Inv.advance (hs.of_kept rfl rfl rfl rfl rfl) hr hpc

/-- Settles O48: a tick and the turn taken touch nothing that the invariant reads, fault entry keeps it, and so does
every instruction that was fetched, since then `pc` is at most 4094. -/
theorem stepKeepsTheInvariant : Obligations.StepKeepsTheInvariant := by
  intro s t hs h
  have hturn : s.afterAgent.Inv := hs.of_kept rfl rfl rfl rfl rfl
  obtain ⟨hr, ⟨_, rfl⟩ | ⟨_, _, rfl⟩ | ⟨op, _, _, _, rfl⟩ | ⟨op, i, _, hf, _, he⟩⟩ := step_cases h
  · exact hturn.of_kept rfl rfl rfl rfl rfl
  · exact hturn.raise _ _ _
  · exact hturn.raise _ _ _
  · exact exec_keeps_inv hturn hr (State.fetch_eq_some.mp hf).1 he

/-! ### Nothing reads the sound timer -/

theorem State.withRange_setSt (s : State) {k k' : State} (ins : Instr) (count : Nat) {a : Byte} (hk : k' = k.setSt a) :
    (s.setSt a).withRange ins count k' = (s.withRange ins count k).setSt a := by
  subst hk
  unfold State.withRange
  rw [State.setSt_i]
  split <;> rfl

/-- A branch decided without `ST` gives results that differ in `ST` alone when its two ends do. -/
theorem branch_setSt (p : Prop) [Decidable p] (u v : State) (a : Byte) :
    ∃ t b, (if p then .next u else .next v : Result) = .next t ∧
      (if p then .next (u.setSt a) else .next (v.setSt a) : Result) = .next (t.setSt b) := by
  by_cases hp : p
  · exact ⟨u, a, if_pos hp, if_pos hp⟩
  · exact ⟨v, a, if_neg hp, if_neg hp⟩

/-- Settles O36: the branch an instruction takes is decided without `ST`; on that branch the two results differ in `ST`
alone, and `LD ST, Vx` makes them equal. -/
theorem soundTimerIsReadByNothing : Obligations.SoundTimerIsReadByNothing := by
  intro i s a
  cases i
  case ret | call | jp => exact branch_setSt _ _ _ a
  case ldVxK =>
    have hkeys : (s.setSt a).nextKeys = s.nextKeys := rfl
    refine ⟨_, a, rfl, ?_⟩
    simp only [exec, execLdVxK, hkeys]
    cases anyKey s.nextKeys <;> rfl
  case drw | ldB | ldMemVx | ldVxMem =>
    exact ⟨_, a, rfl, congrArg Host.Outcome.next (s.withRange_setSt _ _ rfl)⟩
  case ldStVx x => exact ⟨_, s.reg x, rfl, rfl⟩
  all_goals exact ⟨_, a, rfl, rfl⟩

/-! ### Reset -/

theorem State.reset_inv : State.reset.Inv where
  memory := Memory.wf_nil
  errIff := by decide
  errPc := by simp [State.reset]
  pcBound := by decide
  slots := by decide
  slot0 := rfl

theorem resetMemory_wf {rom font : List Byte} (hrom : romWellFormed rom = true) (hfont : fontWellFormed font = true) :
    (resetMemory rom font).wf := by
  have hromLen : rom.length ≤ 3584 := of_decide_eq_true hrom
  have hfontLen : font.length = 80 := of_decide_eq_true hfont
  have hlow : Memory.wf (Memory.writeBytes [] Config.fontBase font) :=
    Memory.wf_writeBytes font [] _ Memory.wf_nil (by simp [Config.fontBase, Config.memSize, hfontLen])
  exact Memory.wf_writeBytes rom _ _ hlow (by simp [Config.progBase, Config.memSize]; omega)

/-- What an accepted reset leaves (R260 to R262). -/
theorem State.applyReset_eq_some {s t : State} {rom font : List Byte} :
    s.applyReset rom font = some t ↔
      (romWellFormed rom = true ∧ fontWellFormed font = true) ∧
        t = (State.reset.setMem (resetMemory rom font)).setInputs s.inputs := by
  simp [State.applyReset, @eq_comm _ t]

/-- Settles O49: reset writes its two images inside `MEM`, and every other part the invariant reads is that of
`State.reset`. -/
theorem resetMeetsTheInvariant : Obligations.ResetMeetsTheInvariant := by
  refine ⟨State.reset_inv, fun s t rom font h => ?_⟩
  obtain ⟨⟨hrom, hfont⟩, rfl⟩ := State.applyReset_eq_some.mp h
  exact (State.reset_inv.setMem (resetMemory_wf hrom hfont)).of_kept rfl rfl rfl rfl rfl

end Sys2Proof.Machine

namespace Sys2Proof.Machine

/-! ### Timers under an instruction that touches none -/

/-- `s` with both timers replaced: a tick is one such replacement. -/
def State.withTimers (s : State) (d e : Byte) : State := (s.setDt d).setSt e

theorem State.withTimers_self (s : State) : s.withTimers s.dt s.st = s := rfl

theorem State.tick_eq_withTimers (s : State) : s.tick = s.withTimers (countDown s.dt) (countDown s.st) := rfl

theorem State.tick_withTimers (s : State) (d e : Byte) :
    (s.withTimers d e).tick = s.withTimers (countDown d) (countDown e) := rfl

theorem State.withRange_withTimers (s : State) {k k' : State} (ins : Instr) (count : Nat) {d e : Byte}
    (hk : k' = k.withTimers d e) :
    (s.withTimers d e).withRange ins count k' = (s.withRange ins count k).withTimers d e := by
  have hi : (s.withTimers d e).i = s.i := rfl
  subst hk
  unfold State.withRange
  rw [hi]
  split <;> rfl

/-- A branch decided without the timers answers a state that carries whatever timers its two ends are given. -/
theorem branch_withTimers (p : Prop) [Decidable p] (u v : State) :
    ∃ t, (if p then .next u else .next v : Result) = .next t ∧
      ∀ d e, (if p then .next (u.withTimers d e) else .next (v.withTimers d e) : Result) =
        .next (t.withTimers d e) := by
  by_cases hp : p
  · exact ⟨u, if_pos hp, fun _ _ => if_pos hp⟩
  · exact ⟨v, if_neg hp, fun _ _ => if_neg hp⟩

/-- An instruction that touches no timer reads none and hands both on (R70, R72): from other timers it answers the same
state with those timers. -/
theorem exec_withTimers {i : Instr} (hi : touchesTimers i = false) (s : State) :
    ∃ t, exec i s = .next t ∧ ∀ d e, exec i (s.withTimers d e) = .next (t.withTimers d e) := by
  cases i
  case ldVxDt | ldDtVx | ldStVx => cases hi
  case ret | call | jp => exact branch_withTimers _ _ _
  case ldVxK =>
    refine ⟨_, rfl, fun d e => ?_⟩
    have hkeys : (s.withTimers d e).nextKeys = s.nextKeys := rfl
    simp only [exec, execLdVxK, hkeys]
    cases anyKey s.nextKeys <;> rfl
  case drw | ldB | ldMemVx | ldVxMem =>
    exact ⟨_, rfl, fun _ _ => congrArg Host.Outcome.next (s.withRange_withTimers _ _ rfl)⟩
  all_goals exact ⟨_, rfl, fun _ _ => rfl⟩

/-- Settles O12: the answer carries the timers of the state the instruction starts from, so counting these down before
the instruction or after it gives one state. -/
theorem ticksCommuteWithTimerFreeInstructions : Obligations.TicksCommuteWithTimerFreeInstructions := by
  intro i s hi
  obtain ⟨t, ht, htimers⟩ := exec_withTimers hi s
  have hkept : t.withTimers s.dt s.st = t := by
    have h := htimers s.dt s.st
    rw [s.withTimers_self, ht] at h
    exact (Host.Outcome.next.inj h).symm
  refine ⟨t, ht, ?_⟩
  calc exec i s.tick
    _ = .next (t.withTimers (countDown s.dt) (countDown s.st)) := by rw [s.tick_eq_withTimers, htimers]
    _ = .next (t.withTimers s.dt s.st).tick := by rw [t.tick_withTimers]
    _ = .next t.tick := by rw [hkept]

/-! ### The fetch -/

/-- The instruction agent's turn runs its step with the turn taken (R104, R233). -/
theorem step_of_instructionTurn {s : State} (h : instructionTurn s) : step s = instructionStep s.afterAgent := by
  obtain ⟨hr, ha⟩ := h
  simp only [step, noStepReason, hr, ha]

/-- A fetch out of range ends the step by fault entry, with no word in the record (R67, R224). -/
theorem instructionStep_of_fetch_none {s : State} (h : s.fetch = none) :
    instructionStep s = .next (s.raise .memRange none (some s.pc.toNat)) := by
  simp only [instructionStep, h]

/-- Settles O8: the fetched word is the two bytes in big-endian order, and without a fetch the step raises. -/
theorem fetchIsBigEndianAndRangeChecked : Obligations.FetchIsBigEndianAndRangeChecked := by
  intro s
  constructor
  · intro hpc
    refine ⟨_, State.fetch_eq_some.mpr ⟨hpc, rfl⟩, ?_⟩
    rw [wordOfBytes_toNat, Nat.mul_comm]
  · intro hturn hpc
    have hfetch : s.afterAgent.fetch = none := State.fetch_eq_none.mpr hpc
    exact ⟨_, (step_of_instructionTurn hturn).trans (instructionStep_of_fetch_none hfetch), faultEntry_raise _ _ _ _⟩

end Sys2Proof.Machine

namespace Sys2Proof

/-! ### Classifying an encoded instruction (R92, R94) -/

/-- The decoder answers `i` for two bytes exactly when their word classifies to `i`, and it leaves the bytes after
them. -/
theorem decode_eq_ok {hi lo : Byte} {rest rest' : List Byte} {i : Instr} :
    decode (hi :: lo :: rest) = .ok (i, rest') ↔ classify (wordOfBytes hi lo) = some i ∧ rest = rest' := by
  rw [decode_cons_cons]
  cases classify (wordOfBytes hi lo) <;> simp

/-- Each format gives its fields back, so the decision order of R94 finds the instruction of the word; one case for each
format and each sub-classification. -/
theorem classify_encode (i : Instr) : classify (encode i) = some i := by
  cases i
  case cls | ret => rfl
  case jp | call | ldI | jpV0 => simp [encode, classify]
  case seImm | sneImm | ldImm | addImm | rnd => simp [encode, classify]
  case seReg | sneReg | drw => simp [encode, classify]
  case ldReg | orReg | andReg | xorReg | addReg | subReg | shr | subnReg | shl => simp [encode, classify, classifyAlu]
  case skp | sknp => simp [encode, classify, classifyKeys]
  case ldVxDt | ldVxK | ldDtVx | ldStVx | addI | ldF | ldB | ldMemVx | ldVxMem =>
    simp [encode, classify, classifyMisc]

/-- Settles O2: the bytes of a word read back as the word, which classifies to its instruction. -/
theorem decodeOfEncodeIsTheInstruction : Obligations.DecodeOfEncodeIsTheInstruction := by
  intro i rest
  refine decode_eq_ok.mpr ⟨?_, rfl⟩
  rw [wordOfBytes_bytesOfWord, classify_encode]

/-! ### Encoding a classified word -/

theorem formatNNN_of_topNibble {op : Word} {t : BitVec 4} (ht : topNibble op = t) : formatNNN t (nnnField op) = op := by
  rw [← ht, formatNNN_fields]

theorem formatXKK_of_topNibble {op : Word} {t : BitVec 4} {kk : Byte} (ht : topNibble op = t) (hkk : kkField op = kk) :
    formatXKK t (xField op) kk = op := by
  rw [← ht, ← hkk, formatXKK_fields]

theorem formatXYN_of_topNibble {op : Word} {t n : BitVec 4} (ht : topNibble op = t) (hn : bottomNibble op = n) :
    formatXYN t (xField op) (yField op) n = op := by
  rw [← ht, ← hn, formatXYN_fields]

theorem encode_of_classifyAlu {op : Word} {i : Instr} (ht : topNibble op = 0x8#4) (h : classifyAlu op = some i) :
    encode i = op := by
  unfold classifyAlu at h
  split at h <;> cases h
  all_goals exact formatXYN_of_topNibble ht ‹_›

theorem encode_of_classifyKeys {op : Word} {i : Instr} (ht : topNibble op = 0xE#4) (h : classifyKeys op = some i) :
    encode i = op := by
  unfold classifyKeys at h
  split at h <;> cases h
  all_goals exact formatXKK_of_topNibble ht ‹_›

theorem encode_of_classifyMisc {op : Word} {i : Instr} (ht : topNibble op = 0xF#4) (h : classifyMisc op = some i) :
    encode i = op := by
  unfold classifyMisc at h
  split at h <;> cases h
  all_goals exact formatXKK_of_topNibble ht ‹_›

/-- Settles O3: on each branch of the decision order of R94 the tests made fix the opcode fields of the word, and the
operands are its other fields. The branches are numbered from top nibble 0. -/
theorem encodeOfClassifiedWordIsTheWord : Obligations.EncodeOfClassifiedWordIsTheWord := by
  intro op i h
  unfold classify at h
  split at h
  case h_1 =>
    split at h
    · next hop => cases h; exact hop.symm
    · split at h <;> cases h
      next hop => exact hop.symm
  case h_6 ht | h_10 ht =>
    split at h <;> cases h
    next hn => exact formatXYN_of_topNibble ht hn
  case h_9 ht => exact encode_of_classifyAlu ht h
  case h_15 ht => exact encode_of_classifyKeys ht h
  case h_16 ht => exact encode_of_classifyMisc ht h
  case h_2 ht | h_3 ht | h_11 ht | h_12 ht => cases h; exact formatNNN_of_topNibble ht
  case h_4 ht | h_5 ht | h_7 ht | h_8 ht | h_13 ht => cases h; exact formatXKK_of_topNibble ht rfl
  case h_14 ht => cases h; exact formatXYN_of_topNibble ht (regBits_nField op).symm
  case h_17 => cases h

/-- Settles O1: each clause is a closed computation of the decoder on a written word. -/
theorem writtenWordsClassify : Obligations.WrittenWordsClassify := by
  unfold Obligations.WrittenWordsClassify
  decide

end Sys2Proof

namespace Sys2Proof.Machine

/-! ### The step around `exec` (R104) -/

theorem changesOnly_afterAgent (s : State) : changesOnly [.inputs] [] s s.afterAgent :=
  changesOnly_of_fields (.inr rfl) (.inr rfl) (.inr rfl) (.inr rfl) (.inr rfl) (.inr rfl) (.inr rfl) (.inr rfl)
    (.inr rfl) (.inl (List.mem_singleton_self _)) fun _ _ => rfl

/-- Settles O6: the two bytes at `pc` are the word that the step fetches, so the step runs what they decode to. -/
theorem stepRunsTheDecodedInstruction : Obligations.StepRunsTheDecodedInstruction := by
  rintro s i ⟨hr, hturn⟩ hpc hdecode
  obtain ⟨hi, -⟩ := decode_eq_ok.mp hdecode
  have hfetch : s.fetch = some _ := State.fetch_eq_some.mpr ⟨hpc, rfl⟩
  exact ⟨step_of_fetch hr hturn hfetch hi, changesOnly_afterAgent s, s.afterAgent_pc⟩

/-! ### Instructions that leave `pc` to the step (R105) -/

/-- A range-checked instruction whose accesses keep `STATUS` and `pc` goes on at `a + 2`, or raises at `a` (R66,
R228). -/
theorem State.withRange_advance_cases {s t k : State} {ins : Instr} {count : Nat}
    (ht : s.withRange ins count k.advance = t) (hstatus : k.status = .running) (hpc : k.pc = s.pc) :
    (t.status = .running ∧ t.pc = s.pc + 2) ∨ (t.status = .fault ∧ t.pc = s.pc) := by
  rcases s.withRange_cases ins count k.advance with ⟨_, e⟩ | ⟨_, _, e⟩
  · rw [← ht, e, ← hpc]
    exact .inl ⟨hstatus, rfl⟩
  · rw [← ht, e]
    exact .inr ⟨rfl, rfl⟩

/-- Settles O47: of the instructions that do not own `pc` the four range-checked ones alone can raise; every other one
ends with `advance`. -/
theorem otherInstructionsAdvanceByTwo : Obligations.OtherInstructionsAdvanceByTwo := by
  intro i s t hi hr h
  cases i
  case ret | jp | call | jpV0 | seImm | sneImm | seReg | sneReg | skp | sknp | ldVxK => cases hi
  case drw | ldB | ldMemVx | ldVxMem => exact State.withRange_advance_cases (Host.Outcome.next.inj h) hr rfl
  all_goals
    cases h
    exact .inl ⟨hr, rfl⟩

end Sys2Proof.Machine

namespace Sys2Proof.Machine

/-! ### Control flow (spec/40_control_flow.md): frames -/

/-- `pc` stands in no frame, so that moving it keeps each one. -/
theorem changesOnly_setPc (ps : List Part) (rs : List Reg) (s : State) (w : Word) : changesOnly ps rs s (s.setPc w) :=
  changesOnly_of_fields (.inr rfl) (.inr rfl) (.inr rfl) (.inr rfl) (.inr rfl) (.inr rfl) (.inr rfl) (.inr rfl)
    (.inr rfl) (.inr rfl) fun _ _ => rfl

theorem changesOnly_halt (s : State) : changesOnly [.status] [] s s.halt :=
  changesOnly_of_fields (.inr rfl) (.inr rfl) (.inr rfl) (.inr rfl) (.inr rfl) (.inr rfl) (.inr rfl)
    (.inl (List.mem_singleton_self _)) (.inr rfl) (.inr rfl) fun _ _ => rfl

theorem changesOnly_setPc_setSp (s : State) (w : Word) (k : Fin 16) :
    changesOnly [.sp] [] s ((s.setPc w).setSp k) :=
  changesOnly_of_fields (.inr rfl) (.inl (List.mem_singleton_self _)) (.inr rfl) (.inr rfl) (.inr rfl) (.inr rfl)
    (.inr rfl) (.inr rfl) (.inr rfl) (.inr rfl) fun _ _ => rfl

/-! ### `JP nnn` (R130) -/

theorem zextAddr_eq_iff {nnn : Addr12} {w : Word} : zextAddr nnn = w ↔ nnn.toNat = w.toNat := by
  rw [← BitVec.toNat_inj, zextAddr_toNat]

theorem exec_jp_self {s : State} {nnn : Addr12} (h : nnn.toNat = s.pc.toNat) : exec (.jp nnn) s = .next s.halt :=
  if_pos (zextAddr_eq_iff.mpr h)

theorem exec_jp_other {s : State} {nnn : Addr12} (h : nnn.toNat ≠ s.pc.toNat) :
    exec (.jp nnn) s = .next (s.setPc (zextAddr nnn)) :=
  if_neg (mt zextAddr_eq_iff.mp h)

/-- A machine that does not run has no transition (R235). -/
theorem step_ne_next_of_stopped {s : State} (h : s.status ≠ .running) (t : State) : step s ≠ .next t :=
  fun hstep => h (step_cases hstep).1

/-- Settles O13: the two clauses are the two branches of `JP`, and the halted machine has no transition. -/
theorem jumpToSelfHaltsElseJumps : Obligations.JumpToSelfHaltsElseJumps := by
  intro s nnn
  constructor
  · intro hself
    have hstopped : s.halt.status ≠ .running := Status.noConfusion
    exact ⟨_, exec_jp_self hself, rfl, rfl, changesOnly_halt s, step_ne_next_of_stopped hstopped⟩
  · intro hother
    exact ⟨_, exec_jp_other hother, zextAddr_toNat nnn, changesOnly_setPc _ _ _ _⟩

/-! ### `RET` (R132) -/

theorem exec_ret_pop {s : State} (h : s.sp ≠ 0) : exec .ret s = .next ((s.setPc (s.slot s.sp)).setSp (s.sp - 1)) :=
  if_neg h

theorem exec_ret_empty {s : State} (h : s.sp = 0) :
    exec .ret s = .next (s.raise .stackUnderflow (some (encode .ret)) none) :=
  if_pos h

/-- Settles O16: the two clauses are the two branches of `RET`; away from 0 the decrement of `SP` does not wrap. -/
theorem returnPopsThePc : Obligations.ReturnPopsThePc := by
  intro s
  constructor
  · intro hsp
    have hne : s.sp ≠ 0 := Fin.val_ne_zero_iff.mp hsp
    exact ⟨_, exec_ret_pop hne, rfl, Fin.val_sub_one_of_ne_zero hne, changesOnly_setPc_setSp _ _ _⟩
  · intro hsp
    exact ⟨_, exec_ret_empty (Fin.val_eq_zero_iff.mp hsp), faultEntry_raise _ _ _ _⟩

/-! ### The register skips (R134 to R137) -/

theorem State.skipIf_pc_eq_add (s : State) (p : Prop) [Decidable p] :
    (s.skipIf (decide p)).pc = s.pc + (if p then 4 else 2) := by
  by_cases hp : p <;> simp [hp]

/-- An instruction that ends by a skip on `p` moves `pc` as `p` decides and changes nothing else. -/
theorem completes_skip {i : Instr} {s : State} {p : Prop} [Decidable p]
    (h : exec i s = .next (s.skipIf (decide p))) :
    completes i s fun t => t.pc = s.pc + (if p then 4 else 2) ∧ changesOnly [] [] s t :=
  ⟨_, h, s.skipIf_pc_eq_add p, changesOnly_setPc _ _ _ _⟩

/-- The same for a skip on the negation of `p`. -/
theorem completes_skip_not {i : Instr} {s : State} {p : Prop} [Decidable p]
    (h : exec i s = .next (s.skipIf (decide (¬ p)))) :
    completes i s fun t => t.pc = s.pc + (if p then 2 else 4) ∧ changesOnly [] [] s t := by
  rw [← ite_not p (4 : Word) 2]
  exact completes_skip h

/-- Settles O19: each of the four is one skip, `SE` on the equality and `SNE` on its negation. -/
theorem registerSkipsGoByFourOrTwo : Obligations.RegisterSkipsGoByFourOrTwo :=
  fun _ _ _ _ => ⟨completes_skip rfl, completes_skip_not rfl, completes_skip rfl, completes_skip_not rfl⟩

end Sys2Proof.Machine

namespace Sys2Proof.Machine

/-! ### Instructions that write one register (R151, R170) -/

theorem changesOnly_setReg_advance (s : State) (x : Reg) (b : Byte) :
    changesOnly [] [x] s (s.setReg x b).advance :=
  changesOnly_of_fields (.inr rfl) (.inr rfl) (.inr rfl) (.inr rfl) (.inr rfl) (.inr rfl) (.inr rfl) (.inr rfl)
    (.inr rfl) (.inr rfl) fun _ hr => reg_setReg_advance_of_not_mem s b hr

theorem completes_setReg {i : Instr} {s : State} {x : Reg} {b : Byte} (h : exec i s = .next (s.setReg x b).advance) :
    completes i s fun t => t.reg x = b ∧ t.pc = s.pc + 2 ∧ changesOnly [] [x] s t :=
  ⟨_, h, reg_setReg_advance_self s x b, rfl, changesOnly_setReg_advance s x b⟩

/-- Settles O20: each of the two is one register write of its operand. -/
theorem copyAndLoadImmediateWriteOneRegister : Obligations.CopyAndLoadImmediateWriteOneRegister :=
  fun _ _ _ _ => ⟨completes_setReg rfl, completes_setReg rfl⟩

/-! ### Instructions that write a result and then `VF` (R150, R155, R156, R158) -/

theorem carryFlag_toNat (a b : Byte) : (carryFlag a b).toNat = if a.toNat + b.toNat > 255 then 1 else 0 := by
  simp only [carryFlag, flagByte_toNat, decide_eq_true_eq, gt_iff_lt]

theorem noBorrowFlag_toNat (m k : Byte) : (noBorrowFlag m k).toNat = if m.toNat ≥ k.toNat then 1 else 0 := by
  simp only [noBorrowFlag, flagByte_toNat, decide_eq_true_eq, ge_iff_le]

/-- The Euclidean remainder of the exact difference: a negative one gains 256 (R156). -/
theorem sub8_toNat_eq_emod (m k : Byte) : ((sub8 m k).toNat : Int) = ((m.toNat : Int) - k.toNat) % 256 := by
  rw [sub8, BitVec.toNat_ofInt]
  exact Int.toNat_of_nonneg (Int.emod_nonneg _ (by decide))

/-- The flag is written last, so that it wins where the destination is `VF` (D7). -/
theorem completes_writeWithFlag {i : Instr} {s : State} {x : Reg} {result flag : Byte}
    (h : exec i s = .next (s.writeWithFlag x result flag)) :
    completes i s fun t =>
      (x ≠ 15 → t.reg x = result) ∧ t.reg 15 = flag ∧ t.pc = s.pc + 2 ∧ changesOnly [] [x, 15] s t :=
  ⟨_, h, reg_writeWithFlag_result s result flag, reg_writeWithFlag_flag s x result flag, rfl,
    changesOnly_writeWithFlag s x result flag⟩

/-- Settles O22: the sum and its carry are the result and the flag of `ADD`. -/
theorem addWritesSumAndCarry : Obligations.AddWritesSumAndCarry := by
  intro s x y
  obtain ⟨t, ht, hresult, hflag, hpc, hframe⟩ := completes_writeWithFlag (i := .addReg x y) (s := s) rfl
  refine ⟨t, ht, fun hx => ?_, ?_, hpc, hframe⟩
  · rw [hresult hx, add8_toNat]
  · rw [hflag, carryFlag_toNat]

/-- Both subtractions: minuend `m`, subtrahend `k`. -/
theorem completes_subtraction {i : Instr} {s : State} {x : Reg} {m k : Byte}
    (h : exec i s = .next (s.writeWithFlag x (sub8 m k) (noBorrowFlag m k))) :
    completes i s fun t =>
      (x ≠ 15 → ((t.reg x).toNat : Int) = ((m.toNat : Int) - k.toNat) % 256) ∧
      (t.reg 15).toNat = (if m.toNat ≥ k.toNat then 1 else 0) ∧
      t.pc = s.pc + 2 ∧ changesOnly [] [x, 15] s t := by
  obtain ⟨t, ht, hresult, hflag, hpc, hframe⟩ := completes_writeWithFlag h
  refine ⟨t, ht, fun hx => ?_, ?_, hpc, hframe⟩
  · rw [hresult hx, sub8_toNat_eq_emod]
  · rw [hflag, noBorrowFlag_toNat]

/-- Settles O23: the minuend of `SUB` is `V[x]`. -/
theorem subWritesDifferenceAndNoBorrow : Obligations.SubWritesDifferenceAndNoBorrow :=
  fun _ _ _ => completes_subtraction rfl

/-- Settles O24: the minuend of `SUBN` is `V[y]`. -/
theorem subnWritesReverseDifference : Obligations.SubnWritesReverseDifference :=
  fun _ _ _ => completes_subtraction rfl

end Sys2Proof.Machine

namespace Sys2Proof.Machine

/-! ### `LD I, nnn` (R172) -/

theorem changesOnly_setI_advance (s : State) (w : Word) : changesOnly [.index] [] s (s.setI w).advance :=
  changesOnly_of_fields (.inl (List.mem_singleton_self _)) (.inr rfl) (.inr rfl) (.inr rfl) (.inr rfl) (.inr rfl)
    (.inr rfl) (.inr rfl) (.inr rfl) (.inr rfl) fun _ _ => rfl

/-- An instruction that ends by one write of `I` leaves the written value there and changes nothing else. -/
theorem completes_setI {i : Instr} {s : State} {w : Word} (h : exec i s = .next (s.setI w).advance) :
    completes i s fun t => t.i = w ∧ t.pc = s.pc + 2 ∧ changesOnly [.index] [] s t :=
  ⟨_, h, rfl, rfl, changesOnly_setI_advance s w⟩

/-- Settles O27: the value written to `I` is the zero-extended operand, whose number is the operand's. -/
theorem loadIndexZeroExtends : Obligations.LoadIndexZeroExtends := by
  intro s nnn
  obtain ⟨t, ht, hi, hpc, hframe⟩ := completes_setI (i := .ldI nnn) (s := s) rfl
  refine ⟨t, ht, ?_, hpc, hframe⟩
  rw [hi, zextAddr_toNat]

end Sys2Proof.Machine

namespace Sys2Proof.Machine

/-! ### Timer transfers (R200 to R202) -/

theorem changesOnly_setDt_advance (s : State) (b : Byte) : changesOnly [.dt] [] s (s.setDt b).advance :=
  changesOnly_of_fields (.inr rfl) (.inr rfl) (.inr rfl) (.inl (List.mem_singleton_self _)) (.inr rfl) (.inr rfl)
    (.inr rfl) (.inr rfl) (.inr rfl) (.inr rfl) fun _ _ => rfl

theorem changesOnly_setSt_advance (s : State) (b : Byte) : changesOnly [.st] [] s (s.setSt b).advance :=
  changesOnly_of_fields (.inr rfl) (.inr rfl) (.inr rfl) (.inr rfl) (.inl (List.mem_singleton_self _)) (.inr rfl)
    (.inr rfl) (.inr rfl) (.inr rfl) (.inr rfl) fun _ _ => rfl

/-- Settles O35: `LD Vx, DT` is one register write of `DT`; the other two are one write of a timer, each with its own
frame. -/
theorem timerTransfersCopyTheByte : Obligations.TimerTransfersCopyTheByte := by
  intro s x
  refine ⟨completes_setReg rfl, ?_, ?_⟩
  · exact ⟨_, rfl, rfl, rfl, changesOnly_setDt_advance s (s.reg x)⟩
  · exact ⟨_, rfl, rfl, rfl, changesOnly_setSt_advance s (s.reg x)⟩

end Sys2Proof.Machine

namespace Sys2Proof.Machine

/-! ### A checked store of a byte list at `I` (R64, R66) -/

theorem Memory.read_writeBytes_inside {m : Memory} {base k : Nat} {xs : List Byte} (hm : m.wf)
    (hend : base + xs.length ≤ Config.memSize) (hk : k < xs.length) : (m.writeBytes base xs).read (base + k) = xs[k] := by
  rw [Memory.read_writeBytes xs m base _ hm hend, if_pos (Nat.le_add_right base k), Nat.add_sub_cancel_left,
    List.getElem?_eq_getElem hk, Option.getD_some]

theorem Memory.read_writeBytes_outside {m : Memory} {base a : Nat} {xs : List Byte} (hm : m.wf)
    (hend : base + xs.length ≤ Config.memSize) (ha : a < base ∨ base + xs.length ≤ a) :
    (m.writeBytes base xs).read a = m.read a := by
  rw [Memory.read_writeBytes xs m base a hm hend]
  rcases ha with hbelow | habove
  · rw [if_neg (by omega)]
  · rw [if_pos (by omega), List.getElem?_eq_none (by omega), Option.getD_none]

theorem changesOnly_setMem_advance (s : State) (m : Memory) : changesOnly [.mem] [] s (s.setMem m).advance :=
  changesOnly_of_fields (.inr rfl) (.inr rfl) (.inr rfl) (.inr rfl) (.inr rfl) (.inl (List.mem_singleton_self _))
    (.inr rfl) (.inr rfl) (.inr rfl) (.inr rfl) fun _ _ => rfl

/-- An instruction that ends by a checked store of `xs`, all of it inside `MEM`. -/
theorem completes_store {i ins : Instr} {s : State} {xs : List Byte} (hm : s.mem.wf)
    (hend : s.i.toNat + xs.length ≤ 4096)
    (h : exec i s = .next (s.withRange ins xs.length (s.setMem (s.mem.writeBytes s.i.toNat xs)).advance)) :
    completes i s fun t =>
      (∀ k (hk : k < xs.length), t.readByte (s.i.toNat + k) = xs[k]) ∧
      (∀ a, a < s.i.toNat ∨ s.i.toNat + xs.length ≤ a → t.readByte a = s.readByte a) ∧
      t.pc = s.pc + 2 ∧ changesOnly [.mem] [] s t := by
  rw [State.withRange_inside (by omega)] at h
  exact ⟨_, h, fun _ hk => Memory.read_writeBytes_inside hm hend hk,
    fun _ ha => Memory.read_writeBytes_outside hm hend ha, rfl, changesOnly_setMem_advance s _⟩

/-- An instruction whose range check fails raises before its accesses: nothing is said of the state `k` after them. -/
theorem completes_withRange_outside {i ins : Instr} {s k : State} {count : Nat} (hcount : count ≠ 0)
    (hout : 4095 < s.i.toNat + (count - 1)) (h : exec i s = .next (s.withRange ins count k)) :
    completes i s fun t =>
      faultEntry s t .memRange (some (encode ins)) (some (if 4095 < s.i.toNat then s.i.toNat else 4096)) := by
  rw [State.withRange_outside hcount hout] at h
  exact ⟨_, h, faultEntry_raise _ _ _ _⟩

/-! ### `LD B, Vx` (R211) -/

/-- The word of a format XKK as one sum, the operand last, as the opcode table writes its rows (R92). -/
theorem formatXKK_eq_ofNat (t : BitVec 4) (x : Reg) (kk : Byte) :
    formatXKK t x kk = BitVec.ofNat 16 (t.toNat * 0x1000 + kk.toNat + 0x100 * x.val) := by
  apply BitVec.eq_of_toNat_eq
  rw [formatXKK_toNat, BitVec.toNat_ofNat]
  omega

theorem encode_ldB (x : Reg) : encode (.ldB x) = BitVec.ofNat 16 (0xF033 + 0x100 * x.val) :=
  formatXKK_eq_ofNat 0xF#4 x 0x33#8

@[simp] theorem length_decimalDigits (v : Byte) : (decimalDigits v).length = 3 := rfl

/-- Each digit fits a byte, so that no digit is cut. -/
theorem decimalDigits_toNat (v : Byte) :
    (decimalDigits v)[0].toNat = v.toNat / 100 ∧ (decimalDigits v)[1].toNat = v.toNat / 10 % 10 ∧
    (decimalDigits v)[2].toNat = v.toNat % 10 := by
  have hv : v.toNat < 2 ^ 8 := v.isLt
  exact ⟨Nat.mod_eq_of_lt (by omega), Nat.mod_eq_of_lt (by omega), Nat.mod_eq_of_lt (by omega)⟩

/-- Settles O38: in range, `LD B` is a checked store of the three digits; out of range, the failed check raises with the
word of `LD B`. -/
theorem bcdStoresThreeDigits : Obligations.BcdStoresThreeDigits := by
  intro s x hm
  constructor
  · intro hin
    have hend : s.i.toNat + (decimalDigits (s.reg x)).length ≤ 4096 := by
      rw [length_decimalDigits]
      omega
    obtain ⟨t, ht, hstored, hother, hpc, hframe⟩ := completes_store (i := .ldB x) hm hend rfl
    obtain ⟨hhundreds, htens, hones⟩ := decimalDigits_toNat (s.reg x)
    refine ⟨t, ht, ?_, ?_, ?_, hother, hpc, hframe⟩
    · exact (congrArg BitVec.toNat (hstored 0 (by simp))).trans hhundreds
    · exact (congrArg BitVec.toNat (hstored 1 (by simp))).trans htens
    · exact (congrArg BitVec.toNat (hstored 2 (by simp))).trans hones
  · intro hout
    rw [← encode_ldB]
    exact completes_withRange_outside (by decide) hout rfl

end Sys2Proof.Machine

namespace Sys2Proof.Machine

/-! ### Stopping, raising and ticking (R221 to R223, R227, R232, R235) -/

/-- Settles O7: a transition needs `STATUS = RUNNING`, and an accepted reset leaves the timers and `STATUS` of
`State.reset`. -/
theorem stoppedMachineTakesNoStep : Obligations.StoppedMachineTakesNoStep := by
  refine fun s => ⟨step_ne_next_of_stopped, fun rom font t h => ?_⟩
  obtain ⟨-, rfl⟩ := State.applyReset_eq_some.mp h
  exact ⟨rfl, rfl, rfl⟩

theorem instructionStep_of_unrecognised {s : State} {op : Word} (hf : s.fetch = some op) (hi : classify op = none) :
    instructionStep s = .next (s.raise .unrecognizedOpcode (some op) none) := by
  simp only [instructionStep, hf, hi]

/-- Settles O9: the word is fetched and classifies to nothing, so the turn is fault entry and no instruction runs. -/
theorem unrecognisedWordRaises : Obligations.UnrecognisedWordRaises := by
  intro s op hturn hf hi
  have hfetch : s.afterAgent.fetch = some op := hf
  exact ⟨_, (step_of_instructionTurn hturn).trans (instructionStep_of_unrecognised hfetch hi), faultEntry_raise _ _ _ _⟩

/-- Settles O44: a tick keeps `STATUS = RUNNING`, the two faults of the fetch are fault entry, and so is every way in
which an instruction comes to `FAULT`. -/
theorem faultEntryWritesStatusAndRecordOnly : Obligations.FaultEntryWritesStatusAndRecordOnly := by
  intro s t h hfault
  obtain ⟨hr, ⟨_, rfl⟩ | ⟨_, _, rfl⟩ | ⟨op, _, _, _, rfl⟩ | ⟨op, i, _, _, _, he⟩⟩ := step_cases h
  · have hrunning : s.afterAgent.tick.status = .running := hr
    rw [hrunning] at hfault
    cases hfault
  · exact ⟨_, _, _, faultEntry_raise _ _ _ _, rfl⟩
  · exact ⟨_, _, _, faultEntry_raise _ _ _ _, rfl⟩
  · obtain ⟨_, _, _, rfl⟩ | ⟨_, _, rfl⟩ | ⟨_, rfl⟩ := exec_raise_cases (s := s.afterAgent) hr he hfault
    all_goals exact ⟨_, _, _, faultEntry_raise _ _ _ _, rfl⟩

theorem encode_call (nnn : Addr12) : encode (.call nnn) = BitVec.ofNat 16 (0x2000 + nnn.toNat) := by
  apply BitVec.eq_of_toNat_eq
  have hnnn : nnn.toNat < 2 ^ 12 := nnn.isLt
  rw [show encode (.call nnn) = formatNNN 0x2#4 nnn from rfl, formatNNN_toNat, BitVec.toNat_ofNat, BitVec.toNat_ofNat]
  omega

theorem exec_call_full {s : State} (nnn : Addr12) (h : s.sp = 15) :
    exec (.call nnn) s = .next (s.raise .stackOverflow (some (encode (.call nnn))) none) :=
  if_pos h

/-- Settles O15: at the two ends of the stack `CALL` and `RET` take their raising branch. -/
theorem stackBoundsRaise : Obligations.StackBoundsRaise := by
  intro s nnn
  constructor
  · intro hsp
    rw [← encode_call]
    exact ⟨_, exec_call_full nnn (Fin.ext hsp), faultEntry_raise _ _ _ _⟩
  · intro hsp
    exact ⟨_, exec_ret_empty (Fin.ext hsp), faultEntry_raise _ _ _ _⟩

theorem changesOnly_withTimers (s : State) (d e : Byte) : changesOnly [.dt, .st] [] s (s.withTimers d e) :=
  changesOnly_of_fields (.inr rfl) (.inr rfl) (.inr rfl) (.inl (by decide)) (.inl (by decide)) (.inr rfl) (.inr rfl)
    (.inr rfl) (.inr rfl) (.inr rfl) fun _ _ => rfl

theorem step_of_timerTurn {s : State} (hr : s.status = .running) (ha : s.nextAgent = .timer) :
    step s = .next s.afterAgent.tick := by
  simp only [step, noStepReason, hr, ha]

theorem countDown_toNat_eq_ite (t : Byte) : (countDown t).toNat = if t.toNat > 0 then t.toNat - 1 else 0 := by
  rw [countDown_toNat]
  split <;> omega

/-- Settles O10: a tick replaces the two timers by their countdowns, and needs `STATUS = RUNNING`. -/
theorem tickCountsBothTimersDown : Obligations.TickCountsBothTimersDown :=
  fun s => ⟨fun hr ha => ⟨_, step_of_timerTurn hr ha, countDown_toNat_eq_ite s.dt, countDown_toNat_eq_ite s.st, rfl,
    changesOnly_withTimers _ _ _⟩, step_ne_next_of_stopped⟩

theorem iterate_countDown_toNat (n : Nat) (t : Byte) : (countDown^[n] t).toNat = t.toNat - n := by
  induction n with
  | zero => rfl
  | succ n ih => rw [Function.iterate_succ_apply', countDown_toNat, ih, Nat.sub_sub]

theorem State.iterate_tick (n : Nat) (s : State) :
    State.tick^[n] s = s.withTimers (countDown^[n] s.dt) (countDown^[n] s.st) := by
  induction n with
  | zero => rfl
  | succ n ih => simp only [Function.iterate_succ_apply', ih, State.tick_withTimers]

/-- Settles O11: `n` ticks replace the two timers by their `n`-fold countdowns. -/
theorem repeatedTicksFloorAtZero : Obligations.RepeatedTicksFloorAtZero := by
  intro s n
  rw [s.iterate_tick n]
  exact ⟨iterate_countDown_toNat n s.dt, iterate_countDown_toNat n s.st, rfl, changesOnly_withTimers _ _ _⟩

end Sys2Proof.Machine

namespace Sys2Proof.Machine

/-! ### The schedule script and the runs under schedules (R233) -/

/-- A turn taken from the script is an enable of the agent whose turn it is, on what is left of the script. -/
theorem State.stepped_eq_onEnable_nextAgent {s : State} (hr : s.status = .running) :
    s.stepped = (s.withSchedule s.inputs.schedule.tail).onEnable s.nextAgent := by
  have hrest : (s.withSchedule s.inputs.schedule.tail).status = .running := hr
  cases ha : s.nextAgent with
  | timer =>
    rw [State.onEnable_timer hrest]
    simp only [State.stepped, step_of_timerTurn hr ha]
    rfl
  | instruction =>
    have hstep : instructionStep s.afterAgent = .next ((s.withSchedule s.inputs.schedule.tail).onEnable .instruction) :=
      State.onEnable_instruction hrest
    simp only [State.stepped, step_of_instructionTurn ⟨hr, ha⟩, hstep]

/-- An enable neither reads nor uses up the script. -/
theorem State.onEnable_withSchedule (s : State) (l : List Agent) (a : Agent) :
    (s.withSchedule l).onEnable a = (s.onEnable a).withSchedule l := by
  by_cases hr : s.status = .running
  · cases a with
    | timer =>
      rw [State.onEnable_timer hr, State.onEnable_timer (s := s.withSchedule l) hr]
      rfl
    | instruction =>
      obtain ⟨t, ht, hl⟩ := instructionStep_withSchedule (s.enable .instruction).afterAgent l
      have hs : t = s.onEnable .instruction := Host.Outcome.next.inj (ht.symm.trans (State.onEnable_instruction hr))
      have hsl : t.withSchedule l = (s.withSchedule l).onEnable .instruction :=
        Host.Outcome.next.inj (hl.symm.trans (State.onEnable_instruction (s := s.withSchedule l) hr))
      rw [← hsl, hs]
  · rw [State.onEnable_of_stopped hr, State.onEnable_of_stopped (s := s.withSchedule l) hr]

theorem State.stepped_withSchedule_nil (s : State) :
    s.stepped.withSchedule [] = (s.withSchedule []).onEnable s.nextAgent := by
  by_cases hr : s.status = .running
  · rw [State.stepped_eq_onEnable_nextAgent hr, ← State.onEnable_withSchedule, State.withSchedule_withSchedule]
  · rw [State.stepped_of_stopped hr, State.onEnable_of_stopped (s := s.withSchedule []) hr]

/-- The schedule that the run of `step` from `s` follows: the agent whose turn it is at each moment. -/
def State.ownSchedule (s : State) : Schedule := fun n => (State.stepped^[n] s).nextAgent

theorem State.iterate_stepped_eq_run (s : State) (n : Nat) :
    (State.stepped^[n] s).withSchedule [] = (runUnder s.ownSchedule s n).withSchedule [] := by
  induction n with
  | zero => rfl
  | succ n ih =>
    rw [Function.iterate_succ_apply', State.stepped_withSchedule_nil, ih, State.onEnable_withSchedule, runUnder_succ]
    rfl

theorem State.iterate_stepped_of_stopped {s : State} (h : s.status ≠ .running) (n : Nat) : State.stepped^[n] s = s :=
  Function.iterate_fixed (State.stepped_of_stopped h) n

/-- While it runs, `step` uses the script up turn by turn; a stopped machine leaves it. -/
theorem State.iterate_stepped_script (sched : Schedule) (s : State) (n : Nat) :
    (State.stepped^[n] (s.withSchedule ((List.range n).map sched))).withSchedule [] =
      (runUnder sched s n).withSchedule [] := by
  induction n generalizing sched s with
  | zero => rfl
  | succ n ih =>
    by_cases hr : s.status = .running
    · rw [List.range_succ_eq_map, List.map_cons, List.map_map, Function.iterate_succ_apply,
        State.stepped_withSchedule_cons hr, State.onEnable_withSchedule, runUnder_succ_first]
      exact ih (fun k => sched (k + 1)) (s.onEnable (sched 0))
    · have hstopped : (s.withSchedule ((List.range (n + 1)).map sched)).status ≠ .running := hr
      rw [State.iterate_stepped_of_stopped hstopped, runUnder_of_stopped n.succ.zero_le hr]
      rfl

/-- Settles O51: a run of `step` follows the schedule of the turns it takes, and a script makes it follow any
beginning of a schedule. -/
theorem runsOfStepAreTheRunsUnderSchedules : Obligations.RunsOfStepAreTheRunsUnderSchedules :=
  fun s => ⟨⟨s.ownSchedule, s.iterate_stepped_eq_run⟩, fun sched n => s.iterate_stepped_script sched n⟩

end Sys2Proof.Machine

namespace Sys2Proof.Machine

/-! ### Which words move the delay timer (R72, R201) -/

/-- The word of an instruction classifies to it alone, so a fetched word that is not the encoding of `i` does not run
`i`. -/
theorem ne_of_fetch_ne_encode {s : State} {op : Word} {i j : Instr} (hf : s.fetch = some op)
    (hj : classify op = some j) (hi : s.fetch ≠ some (encode i)) : j ≠ i := by
  rintro rfl
  rw [encodeOfClassifiedWordIsTheWord op j hj] at hi
  exact hi hf

theorem exec_dt_of_timer_free {i : Instr} {s t : State} (hi : touchesTimers i = false) (h : exec i s = .next t) :
    t.dt = s.dt := by
  obtain ⟨u, hu, htimers⟩ := exec_withTimers hi s
  have hkept : exec i s = .next (u.withTimers s.dt s.st) := htimers s.dt s.st
  rw [h] at hkept
  rw [Host.Outcome.next.inj hkept]
  rfl

theorem exec_dt {i : Instr} {s t : State} (hi : ∀ x, i ≠ .ldDtVx x) (h : exec i s = .next t) : t.dt = s.dt := by
  cases i
  case ldDtVx x => exact absurd rfl (hi x)
  case ldVxDt | ldStVx => cases h; rfl
  all_goals exact exec_dt_of_timer_free rfl h

/-- Everything a turn of the instruction agent can be (R104). -/
theorem State.onEnable_instruction_cases {s : State} (hr : s.status = .running) :
    (∃ kind opcode addr, s.onEnable .instruction = (s.enable .instruction).afterAgent.raise kind opcode addr) ∨
    ∃ op i, s.fetch = some op ∧ classify op = some i ∧
      exec i (s.enable .instruction).afterAgent = .next (s.onEnable .instruction) := by
  have hstep := State.onEnable_instruction hr
  cases hf : s.fetch with
  | none =>
    have hf' : (s.enable .instruction).afterAgent.fetch = none := hf
    rw [instructionStep_of_fetch_none hf'] at hstep
    exact .inl ⟨_, _, _, (Host.Outcome.next.inj hstep).symm⟩
  | some op =>
    have hf' : (s.enable .instruction).afterAgent.fetch = some op := hf
    cases hi : classify op with
    | none =>
      rw [instructionStep_of_unrecognised hf' hi] at hstep
      exact .inl ⟨_, _, _, (Host.Outcome.next.inj hstep).symm⟩
    | some i => exact .inr ⟨op, i, rfl, hi, State.onEnable_exec hr hf hi⟩

theorem State.onEnable_instruction_dt {s : State} (hf : ∀ x, s.fetch ≠ some (encode (.ldDtVx x))) :
    (s.onEnable .instruction).dt = s.dt := by
  by_cases hr : s.status = .running
  · obtain ⟨_, _, _, e⟩ | ⟨op, i, hop, hi, he⟩ := State.onEnable_instruction_cases hr
    · rw [e]
      rfl
    · exact exec_dt (s := (s.enable .instruction).afterAgent) (fun x => ne_of_fetch_ne_encode hop hi (hf x)) he
  · rw [State.onEnable_of_stopped hr]

theorem State.onEnable_timer_dt {s : State} (hr : s.status = .running) : (s.onEnable .timer).dt = countDown s.dt := by
  rw [State.onEnable_timer hr]
  rfl

/-! ### Progress under weak fairness (R234) -/

/-- A rank that never rises from moment `N` on, and that every turn of `a` lowers until it is 0, reaches 0 and stays
there if `a` gets a turn again and again. -/
theorem eventually_zero_of_turns {sched : Schedule} {a : Agent} {rank : Nat → Nat} {N : Nat}
    (hturns : ∀ n, ∃ m, n ≤ m ∧ sched m = a) (hmono : ∀ n, N ≤ n → rank (n + 1) ≤ rank n)
    (hturn : ∀ n, N ≤ n → sched n = a → rank (n + 1) ≤ rank n - 1) : ∃ n, N ≤ n ∧ ∀ m, n ≤ m → rank m = 0 := by
  have hanti : ∀ n m, N ≤ n → n ≤ m → rank m ≤ rank n := fun n m hn hm =>
    antitoneOn_nat_Ici_of_succ_le hmono hn (hn.trans hm) hm
  induction hk : rank N using Nat.strong_induction_on generalizing N with
  | _ k ih =>
    by_cases hzero : k = 0
    · exact ⟨N, le_rfl, fun m hm => by have := hanti N m le_rfl hm; omega⟩
    · obtain ⟨m, hm, ha⟩ := hturns N
      have hlower : rank (m + 1) < k := by
        have := hanti N m le_rfl hm
        have := hturn m hm ha
        omega
      have hlater : ∀ {n}, m + 1 ≤ n → N ≤ n := fun hn => by omega
      obtain ⟨n, hn, hall⟩ := ih _ hlower (fun n hn => hmono n (hlater hn)) (fun n hn => hturn n (hlater hn))
        (fun n j hn => hanti n j (hlater hn)) rfl
      exact ⟨n, hlater hn, hall⟩

/-- Settles O52: if the run goes on for ever, both agents get turns for ever; the value of `DT` is a rank that every
tick lowers and no instruction changes. -/
theorem fairSchedulesRunTheDelayTimerOut : Obligations.FairSchedulesRunTheDelayTimerOut := by
  intro sched s hfair hset
  by_cases hrun : ∀ n, (runUnder sched s n).status = .running
  · have htick : ∀ n, sched n = .timer → (runUnder sched s (n + 1)).dt.toNat = (runUnder sched s n).dt.toNat - 1 := by
      intro n ha
      rw [runUnder_succ, ha, State.onEnable_timer_dt (hrun n), countDown_toNat]
    have hmono : ∀ n, (runUnder sched s (n + 1)).dt.toNat ≤ (runUnder sched s n).dt.toNat := by
      intro n
      cases ha : sched n with
      | timer => exact (htick n ha).trans_le (Nat.sub_le _ _)
      | instruction => rw [runUnder_succ, ha, State.onEnable_instruction_dt (hset n)]
    obtain ⟨n, -, hn⟩ := eventually_zero_of_turns (rank := fun n => (runUnder sched s n).dt.toNat) (N := 0)
      (fun n => hfair .timer n fun m _ => hrun m) (fun n _ => hmono n) (fun n _ ha => (htick n ha).le)
    exact ⟨n, .inr fun m hm => BitVec.eq_of_toNat_eq (hn m hm)⟩
  · obtain ⟨n, hn⟩ := not_forall.mp hrun
    exact ⟨n, .inl hn⟩

end Sys2Proof.Machine

namespace Sys2Proof.Machine

/-! ### The delay loop (R234, R266) -/

theorem encode_injective : Function.Injective encode := fun i j h =>
  Option.some.inj ((classify_encode i).symm.trans ((congrArg classify h).trans (classify_encode j)))

/-- The unit runs inside the loop, and behind the load `V[x]` is 0 only if `DT` is. -/
structure State.InDelayLoop (s : State) (nnn : Addr12) (x : Reg) : Prop where
  running : s.status = .running
  loop    : s.pollsDelayTimerAt nnn x
  place   : s.pc.toNat = nnn.toNat ∨ (s.pc.toNat = nnn.toNat + 2 ∧ (s.reg x = 0 → s.dt = 0)) ∨
    s.pc.toNat = nnn.toNat + 4

/-- The unit has left the loop for the instruction behind it. -/
def State.LeftDelayLoop (s : State) (nnn : Addr12) : Prop :=
  s.pc.toNat = nnn.toNat + 6 ∧ s.status = .running ∧ s.dt = 0

/-- An instruction turn on the encoded word of `i` runs `i`. -/
theorem State.onEnable_encoded {s t : State} {i : Instr} (hr : s.status = .running) (hf : s.fetch = some (encode i))
    (ht : exec i (s.enable .instruction).afterAgent = .next t) : s.onEnable .instruction = t :=
  Host.Outcome.next.inj ((State.onEnable_exec hr hf (classify_encode i)).symm.trans ht)

theorem State.fetch_of_wordAt {s : State} {a : Nat} {op : Word} (hpc : s.pc.toNat = a) (ha : a ≤ 4094)
    (hop : s.wordAt a = op) : s.fetch = some op := by
  subst hpc
  exact State.fetch_eq_some.mpr ⟨ha, hop.symm⟩

/-- The three places of the loop, with the word fetched at each. -/
theorem State.InDelayLoop.fetch_cases {s : State} {nnn : Addr12} {x : Reg} (h : s.InDelayLoop nnn x) :
    (s.pc.toNat = nnn.toNat ∧ s.fetch = some (encode (.ldVxDt x))) ∨
    (s.pc.toNat = nnn.toNat + 2 ∧ (s.reg x = 0 → s.dt = 0) ∧ s.fetch = some (encode (.seImm x 0))) ∨
    (s.pc.toNat = nnn.toNat + 4 ∧ s.fetch = some (encode (.jp nnn))) := by
  obtain ⟨hle, hload, htest, hback⟩ := h.loop
  rcases h.place with hpc | ⟨hpc, hzero⟩ | hpc
  · exact .inl ⟨hpc, State.fetch_of_wordAt hpc (by omega) hload⟩
  · exact .inr (.inl ⟨hpc, hzero, State.fetch_of_wordAt hpc (by omega) htest⟩)
  · exact .inr (.inr ⟨hpc, State.fetch_of_wordAt hpc (by omega) hback⟩)

theorem State.InDelayLoop.fetch_ne_ldDtVx {s : State} {nnn : Addr12} {x : Reg} (h : s.InDelayLoop nnn x) (y : Reg) :
    s.fetch ≠ some (encode (.ldDtVx y)) := by
  intro hset
  obtain ⟨_, hf⟩ | ⟨_, _, hf⟩ | ⟨_, hf⟩ := h.fetch_cases
  all_goals cases encode_injective (Option.some.inj (hset.symm.trans hf))

/-- The four ways through the loop from one place to the next. -/
inductive State.DelayLoopTurn (s t : State) (nnn : Addr12) (x : Reg) : Prop
  | load (hpc : s.pc.toNat = nnn.toNat) (hpc' : t.pc.toNat = nnn.toNat + 2) (hreg : t.reg x = s.dt)
  | stay (hpc : s.pc.toNat = nnn.toNat + 2) (hreg : s.reg x ≠ 0) (hpc' : t.pc.toNat = nnn.toNat + 4)
  | leave (hpc : s.pc.toNat = nnn.toNat + 2) (hreg : s.reg x = 0) (hdt : s.dt = 0) (hpc' : t.pc.toNat = nnn.toNat + 6)
  | back (hpc : s.pc.toNat = nnn.toNat + 4) (hpc' : t.pc.toNat = nnn.toNat)

/-- Everything an instruction turn in the loop does. -/
theorem State.InDelayLoop.instruction_turn {s : State} {nnn : Addr12} {x : Reg} (h : s.InDelayLoop nnn x) :
    (s.onEnable .instruction).status = .running ∧ (s.onEnable .instruction).pollsDelayTimerAt nnn x ∧
      s.DelayLoopTurn (s.onEnable .instruction) nnn x := by
  have hle := h.loop.1
  obtain ⟨hpc, hf⟩ | ⟨hpc, hzero, hf⟩ | ⟨hpc, hf⟩ := h.fetch_cases
  · rw [State.onEnable_encoded h.running hf rfl]
    have hpc' : (s.pc + 2).toNat = nnn.toNat + 2 := by bv_omega
    exact ⟨h.running, h.loop, .load hpc hpc' (reg_setReg_advance_self _ _ _)⟩
  · rw [State.onEnable_encoded h.running hf rfl]
    refine ⟨h.running, h.loop, ?_⟩
    by_cases hreg : s.reg x = 0
    · have hpc' : (s.pc + 4).toNat = nnn.toNat + 6 := by bv_omega
      exact .leave hpc hreg (hzero hreg) ((congrArg BitVec.toNat (if_pos (decide_eq_true hreg))).trans hpc')
    · have hpc' : (s.pc + 2).toNat = nnn.toNat + 4 := by bv_omega
      exact .stay hpc hreg ((congrArg BitVec.toNat (if_neg (mt of_decide_eq_true hreg))).trans hpc')
  · have hother : nnn.toNat ≠ s.pc.toNat := by omega
    rw [State.onEnable_encoded h.running hf (exec_jp_other (s := (s.enable .instruction).afterAgent) hother)]
    exact ⟨h.running, h.loop, .back hpc (zextAddr_toNat nnn)⟩

theorem countDown_zero : countDown 0 = 0 := rfl

theorem State.InDelayLoop.onEnable_timer {s : State} {nnn : Addr12} {x : Reg} (h : s.InDelayLoop nnn x) :
    (s.onEnable .timer).InDelayLoop nnn x := by
  rw [State.onEnable_timer h.running]
  refine ⟨h.running, h.loop, h.place.imp_right (Or.imp_left (And.imp_right fun hzero hreg => ?_))⟩
  show countDown s.dt = 0
  rw [hzero hreg, countDown_zero]

/-- An instruction turn in the loop stays in it, or leaves it with `DT = 0`. -/
theorem State.InDelayLoop.onEnable_instruction {s : State} {nnn : Addr12} {x : Reg} (h : s.InDelayLoop nnn x) :
    (s.onEnable .instruction).LeftDelayLoop nnn ∨ (s.onEnable .instruction).InDelayLoop nnn x := by
  obtain ⟨hr, hloop, hturn⟩ := h.instruction_turn
  have hdt := State.onEnable_instruction_dt h.fetch_ne_ldDtVx
  cases hturn with
  | load _ hpc' hreg => exact .inr ⟨hr, hloop, .inr (.inl ⟨hpc', fun hx => hdt.trans (hreg.symm.trans hx)⟩)⟩
  | stay _ _ hpc' => exact .inr ⟨hr, hloop, .inr (.inr hpc')⟩
  | leave _ _ hzero hpc' => exact .inl ⟨hpc', hr, hdt.trans hzero⟩
  | back _ hpc' => exact .inr ⟨hr, hloop, .inl hpc'⟩

theorem State.InDelayLoop.onEnable {s : State} {nnn : Addr12} {x : Reg} (h : s.InDelayLoop nnn x) (a : Agent) :
    (s.onEnable a).LeftDelayLoop nnn ∨ (s.onEnable a).InDelayLoop nnn x := by
  cases a with
  | timer => exact .inr h.onEnable_timer
  | instruction => exact h.onEnable_instruction

/-- Once `DT` is 0, the instruction turns until the loop is left: behind the load it is one if the load has read that
0 (`V[x] = 0`), and a last round of the loop is needed if it has not. -/
def State.turnsInLoop (s : State) (nnn : Addr12) (x : Reg) : Nat :=
  if s.pc.toNat = nnn.toNat then 2
  else if s.pc.toNat = nnn.toNat + 2 then if s.reg x = 0 then 1 else 4
  else if s.pc.toNat = nnn.toNat + 4 then 3
  else 0

theorem State.turnsInLoop_at_load {s : State} {nnn : Addr12} (x : Reg) (hpc : s.pc.toNat = nnn.toNat) :
    s.turnsInLoop nnn x = 2 :=
  if_pos hpc

theorem State.turnsInLoop_at_test {s : State} {nnn : Addr12} (x : Reg) (hpc : s.pc.toNat = nnn.toNat + 2) :
    s.turnsInLoop nnn x = if s.reg x = 0 then 1 else 4 := by
  rw [State.turnsInLoop, if_neg (by omega), if_pos hpc]

theorem State.turnsInLoop_at_jump {s : State} {nnn : Addr12} (x : Reg) (hpc : s.pc.toNat = nnn.toNat + 4) :
    s.turnsInLoop nnn x = 3 := by
  rw [State.turnsInLoop, if_neg (by omega), if_neg (by omega), if_pos hpc]

theorem State.turnsInLoop_behind {s : State} {nnn : Addr12} (x : Reg) (hpc : s.pc.toNat = nnn.toNat + 6) :
    s.turnsInLoop nnn x = 0 := by
  rw [State.turnsInLoop, if_neg (by omega), if_neg (by omega), if_neg (by omega)]

theorem State.InDelayLoop.turnsInLoop_ne_zero {s : State} {nnn : Addr12} {x : Reg} (h : s.InDelayLoop nnn x) :
    s.turnsInLoop nnn x ≠ 0 := by
  rcases h.place with hpc | ⟨hpc, -⟩ | hpc
  · rw [State.turnsInLoop_at_load x hpc]
    decide
  · rw [State.turnsInLoop_at_test x hpc]
    split <;> decide
  · rw [State.turnsInLoop_at_jump x hpc]
    decide

theorem State.InDelayLoop.turnsInLoop_onEnable_timer {s : State} {nnn : Addr12} {x : Reg} (h : s.InDelayLoop nnn x) :
    (s.onEnable .timer).turnsInLoop nnn x = s.turnsInLoop nnn x := by
  rw [State.onEnable_timer h.running]
  rfl

theorem State.InDelayLoop.turnsInLoop_onEnable_instruction {s : State} {nnn : Addr12} {x : Reg}
    (h : s.InDelayLoop nnn x) (hdt : s.dt = 0) :
    (s.onEnable .instruction).turnsInLoop nnn x = s.turnsInLoop nnn x - 1 := by
  obtain ⟨-, -, hturn⟩ := h.instruction_turn
  cases hturn with
  | load hpc hpc' hreg =>
    rw [State.turnsInLoop_at_load x hpc, State.turnsInLoop_at_test x hpc', if_pos (hreg.trans hdt)]
  | stay hpc hreg hpc' => rw [State.turnsInLoop_at_test x hpc, State.turnsInLoop_at_jump x hpc', if_neg hreg]
  | leave hpc hreg _ hpc' => rw [State.turnsInLoop_at_test x hpc, State.turnsInLoop_behind x hpc', if_pos hreg]
  | back hpc hpc' => rw [State.turnsInLoop_at_jump x hpc, State.turnsInLoop_at_load x hpc']

theorem inDelayLoop_of_never_left {sched : Schedule} {s : State} {nnn : Addr12} {x : Reg} (h : s.InDelayLoop nnn x)
    (hnever : ∀ n, ¬ (runUnder sched s n).LeftDelayLoop nnn) (n : Nat) : (runUnder sched s n).InDelayLoop nnn x := by
  induction n with
  | zero => exact h
  | succ n ih => exact (ih.onEnable (sched n)).resolve_left (hnever (n + 1))

/-- Both agents are needed: ticks run `DT` out, and then every instruction turn brings the end of the loop nearer. -/
theorem exists_leftDelayLoop_of_weaklyFair {sched : Schedule} {s : State} {nnn : Addr12} {x : Reg}
    (h : s.InDelayLoop nnn x) (hfair : weaklyFair sched s) : ∃ n, (runUnder sched s n).LeftDelayLoop nnn := by
  by_contra hno
  have hin := inDelayLoop_of_never_left h (not_exists.mp hno)
  obtain ⟨N, hstop | hdt⟩ := fairSchedulesRunTheDelayTimerOut sched s hfair fun n => (hin n).fetch_ne_ldDtVx
  · exact hstop (hin N).running
  · have hturn : ∀ n, N ≤ n → sched n = .instruction →
        (runUnder sched s (n + 1)).turnsInLoop nnn x = (runUnder sched s n).turnsInLoop nnn x - 1 := by
      intro n hn ha
      rw [runUnder_succ, ha, (hin n).turnsInLoop_onEnable_instruction (hdt n hn)]
    have hmono : ∀ n, N ≤ n →
        (runUnder sched s (n + 1)).turnsInLoop nnn x ≤ (runUnder sched s n).turnsInLoop nnn x := by
      intro n hn
      cases ha : sched n with
      | timer => rw [runUnder_succ, ha, (hin n).turnsInLoop_onEnable_timer]
      | instruction => exact (hturn n hn ha).trans_le (Nat.sub_le _ _)
    obtain ⟨n, -, hzero⟩ := eventually_zero_of_turns (rank := fun n => (runUnder sched s n).turnsInLoop nnn x)
      (fun n => hfair .instruction n fun m _ => (hin m).running) hmono (fun n hn ha => (hturn n hn ha).le)
    exact (hin n).turnsInLoop_ne_zero (hzero n le_rfl)

/-- Without ticks the loop is never left once `DT` is not 0. -/
theorem inDelayLoop_of_instructions_alone {sched : Schedule} {s : State} {nnn : Addr12} {x : Reg}
    (h : s.InDelayLoop nnn x) (halone : ∀ n, sched n = .instruction) (hdt : s.dt ≠ 0) (n : Nat) :
    (runUnder sched s n).InDelayLoop nnn x ∧ (runUnder sched s n).dt = s.dt := by
  induction n with
  | zero => exact ⟨h, rfl⟩
  | succ n ih =>
    obtain ⟨hin, hkept⟩ := ih
    have hkept' : (runUnder sched s (n + 1)).dt = s.dt := by
      rw [runUnder_succ, halone n, State.onEnable_instruction_dt hin.fetch_ne_ldDtVx, hkept]
    have hstay : ¬ (runUnder sched s (n + 1)).LeftDelayLoop nnn := fun hleft => hdt (hkept'.symm.trans hleft.2.2)
    exact ⟨(hin.onEnable (sched n)).resolve_left hstay, hkept'⟩

theorem State.onEnable_timer_pc (s : State) : (s.onEnable .timer).pc = s.pc := by
  by_cases hr : s.status = .running
  · rw [State.onEnable_timer hr]
    rfl
  · rw [State.onEnable_of_stopped hr]

theorem pc_of_ticks_alone {sched : Schedule} (s : State) (halone : ∀ n, sched n = .timer) (n : Nat) :
    (runUnder sched s n).pc = s.pc := by
  induction n with
  | zero => rfl
  | succ n ih => rw [runUnder_succ, halone n, State.onEnable_timer_pc, ih]

/-- Settles O53: the loop is entered at its start, left under weak fairness, and not left by either agent alone. -/
theorem delayLoopEndsUnderFairnessOnly : Obligations.DelayLoopEndsUnderFairnessOnly := by
  intro sched s nnn x hr hloop hpc
  have hin : s.InDelayLoop nnn x := ⟨hr, hloop, .inl hpc⟩
  refine ⟨exists_leftDelayLoop_of_weaklyFair hin, fun halone hdt n => ?_, pc_of_ticks_alone s⟩
  obtain ⟨hstay, -⟩ := inDelayLoop_of_instructions_alone hin halone hdt n
  rcases hstay.place with hplace | ⟨hplace, -⟩ | hplace <;> omega

end Sys2Proof.Machine

namespace Sys2Proof.Machine

/-! ### Runs that do not look at the delay timer (R234) -/

theorem sameButTimers.refl (s : State) : sameButTimers s s := rfl

theorem sameButTimers.symm {s t : State} (h : sameButTimers s t) : sameButTimers t s := by
  unfold sameButTimers at h
  rw [h]
  rfl

theorem sameButTimers.trans {s t u : State} (h : sameButTimers s t) (h' : sameButTimers t u) : sameButTimers s u := by
  unfold sameButTimers at h h'
  rw [h', h]
  rfl

theorem sameButTimers.status {s t : State} (h : sameButTimers s t) : t.status = s.status := by rw [h]

theorem sameButTimers.fetch {s t : State} (h : sameButTimers s t) : t.fetch = s.fetch := by
  rw [h]
  rfl

theorem sameButTimers.raise {s t : State} (h : sameButTimers s t) (kind : FatalKind) (opcode : Option Word)
    (addr : Option Nat) : sameButTimers (s.raise kind opcode addr) (t.raise kind opcode addr) := by
  rw [h]
  rfl

theorem sameButTimers.withRange {s t k l : State} (h : sameButTimers s t) (hk : sameButTimers k l) (ins : Instr)
    (count : Nat) : sameButTimers (s.withRange ins count k) (t.withRange ins count l) := by
  have hi : t.i = s.i := by rw [h]
  unfold State.withRange
  rw [hi]
  split
  · exact h.raise _ _ _
  · exact hk

/-- Two results of `exec` that differ in the timers and the count of turns alone. -/
def bothComplete (r r' : Result) : Prop := ∃ s t, r = .next s ∧ r' = .next t ∧ sameButTimers s t

theorem bothComplete_ite {p : Prop} [Decidable p] {s s' t t' : State} (hpos : sameButTimers s t)
    (hneg : sameButTimers s' t') :
    bothComplete (if p then .next s else .next s') (if p then .next t else .next t') := by
  by_cases hp : p
  · exact ⟨s, t, if_pos hp, if_pos hp, hpos⟩
  · exact ⟨s', t', if_neg hp, if_neg hp, hneg⟩

/-- `LD Vx, DT` alone carries a timer over into the rest of the state (R70, R72). -/
theorem exec_sameButTimers {i : Instr} {s t : State} (hi : ∀ x, i ≠ .ldVxDt x) (h : sameButTimers s t) :
    bothComplete (exec i s) (exec i t) := by
  obtain ⟨d, e, k, rfl⟩ : ∃ d e k, t = { s with dt := d, st := e, inputs := { s.inputs with turns := k } } := ⟨_, _, _, h⟩
  cases i
  case ldVxDt x => exact absurd rfl (hi x)
  case ret | call | jp => exact bothComplete_ite rfl rfl
  case ldVxK =>
    refine ⟨_, _, rfl, rfl, ?_⟩
    have hkeys : State.nextKeys { s with dt := d, st := e, inputs := { s.inputs with turns := k } } = s.nextKeys := rfl
    rw [hkeys]
    cases anyKey s.nextKeys <;> rfl
  case drw | ldB | ldMemVx | ldVxMem =>
    refine ⟨_, _, rfl, rfl, h.withRange ?_ _ _⟩
    rfl
  all_goals exact ⟨_, _, rfl, rfl, rfl⟩

theorem sameButTimers_onEnable_timer (s : State) : sameButTimers s (s.onEnable .timer) := by
  by_cases hr : s.status = .running
  · rw [State.onEnable_timer hr]
    rfl
  · rw [State.onEnable_of_stopped hr]
    rfl

theorem sameButTimers.enable_afterAgent {s t : State} (h : sameButTimers s t) (a : Agent) :
    sameButTimers (s.enable a).afterAgent (t.enable a).afterAgent := by
  rw [h]
  rfl

theorem instructionStep_sameButTimers {s t : State} (hf : ∀ x, s.fetch ≠ some (encode (.ldVxDt x)))
    (h : sameButTimers s t) : bothComplete (instructionStep s) (instructionStep t) := by
  cases hop : s.fetch with
  | none =>
    refine ⟨_, _, instructionStep_of_fetch_none hop, instructionStep_of_fetch_none (h.fetch.trans hop), ?_⟩
    rw [h]
    rfl
  | some op =>
    cases hi : classify op with
    | none =>
      exact ⟨_, _, instructionStep_of_unrecognised hop hi, instructionStep_of_unrecognised (h.fetch.trans hop) hi,
        h.raise _ _ _⟩
    | some i =>
      have he := exec_sameButTimers (fun x => ne_of_fetch_ne_encode hop hi (hf x)) h
      simpa only [instructionStep, h.fetch, hop, hi] using he

theorem sameButTimers.onEnable_instruction {s t : State} (hf : ∀ x, s.fetch ≠ some (encode (.ldVxDt x)))
    (h : sameButTimers s t) : sameButTimers (s.onEnable .instruction) (t.onEnable .instruction) := by
  by_cases hr : s.status = .running
  · obtain ⟨u, v, hu, hv, huv⟩ :=
      instructionStep_sameButTimers (s := (s.enable .instruction).afterAgent) hf (h.enable_afterAgent .instruction)
    rw [State.onEnable_instruction hr] at hu
    rw [State.onEnable_instruction (h.status.trans hr)] at hv
    rwa [Host.Outcome.next.inj hu, Host.Outcome.next.inj hv]
  · have hr' : t.status ≠ .running := fun ht => hr (h.status.symm.trans ht)
    rwa [State.onEnable_of_stopped hr, State.onEnable_of_stopped hr']

theorem instructionTurns_succ_timer {sched : Schedule} {n : Nat} (h : sched n = .timer) :
    instructionTurns sched (n + 1) = instructionTurns sched n := by
  simp [instructionTurns, h]

theorem instructionTurns_succ_instruction {sched : Schedule} {n : Nat} (h : sched n = .instruction) :
    instructionTurns sched (n + 1) = instructionTurns sched n + 1 := by
  simp [instructionTurns, h]

/-- Ticks alone move the timers alone. -/
theorem sameButTimers_of_instructionTurns_eq_zero {sched : Schedule} (s : State) {n : Nat}
    (hn : instructionTurns sched n = 0) : sameButTimers s (runUnder sched s n) := by
  induction n with
  | zero => exact .refl s
  | succ n ih =>
    cases ha : sched n with
    | timer =>
      rw [instructionTurns_succ_timer ha] at hn
      rw [runUnder_succ, ha]
      exact (ih hn).trans (sameButTimers_onEnable_timer _)
    | instruction =>
      rw [instructionTurns_succ_instruction ha] at hn
      cases hn

/-- A run that has had instruction turns is, but for the timers, where the last of them left it. -/
theorem exists_last_instruction_turn {sched : Schedule} (s : State) {n c : Nat}
    (hn : instructionTurns sched n = c + 1) :
    ∃ m, m < n ∧ instructionTurns sched m = c ∧
      sameButTimers ((runUnder sched s m).onEnable .instruction) (runUnder sched s n) := by
  induction n with
  | zero => cases hn
  | succ n ih =>
    rw [runUnder_succ]
    cases ha : sched n with
    | timer =>
      rw [instructionTurns_succ_timer ha] at hn
      obtain ⟨m, hm, hc, hsame⟩ := ih hn
      exact ⟨m, hm.trans n.lt_succ_self, hc, hsame.trans (sameButTimers_onEnable_timer _)⟩
    | instruction =>
      rw [instructionTurns_succ_instruction ha] at hn
      exact ⟨n, n.lt_succ_self, Nat.succ.inj hn, .refl _⟩

/-- Settles O54, by induction on the number of instruction turns: the last one of each run starts from states that are
alike but for the timers, and no `LD Vx, DT` is run there. -/
theorem timerBlindRunsIgnoreTheInterleaving : Obligations.TimerBlindRunsIgnoreTheInterleaving := by
  intro sched sched' s n n' hturns hblind
  induction hc : instructionTurns sched n generalizing n n' with
  | zero =>
    exact (sameButTimers_of_instructionTurns_eq_zero s hc).symm.trans
      (sameButTimers_of_instructionTurns_eq_zero s (hturns.symm.trans hc))
  | succ c ih =>
    obtain ⟨m, hm, hmc, hrun⟩ := exists_last_instruction_turn s hc
    obtain ⟨m', -, hmc', hrun'⟩ := exists_last_instruction_turn s (hturns.symm.trans hc)
    have hbefore : sameButTimers (runUnder sched s m) (runUnder sched' s m') :=
      ih m m' (hmc.trans hmc'.symm) (fun k hk => hblind k (hk.trans hm)) hmc
    exact hrun.symm.trans ((hbefore.onEnable_instruction (hblind m hm)).trans hrun')

end Sys2Proof.Machine

namespace Sys2Proof.Machine

/-! ### What reset leaves: the memory image by address range, and every field outside it (R39, R260) -/

/-- The default FONT ends below address 80 (R61). -/
theorem background_of_fontBytes_le {a : Nat} (ha : 80 ≤ a) : background a = 0 :=
  List.getD_eq_default _ _ ha

section
variable {rom font : List Byte}

theorem fontImage_wf (hfont : font.length = 80) : (Memory.writeBytes [] Config.fontBase font).wf :=
  Memory.wf_writeBytes font [] _ Memory.wf_nil (by simp [Config.fontBase, Config.memSize, hfont])

theorem romEnd_le_memSize (hrom : rom.length ≤ 3584) : Config.progBase + rom.length ≤ Config.memSize :=
  Nat.add_le_add_left hrom 0x200

theorem resetMemory_read_rom (hrom : rom.length ≤ 3584) (hfont : font.length = 80) {k : Nat} (hk : k < rom.length) :
    (resetMemory rom font).read (0x200 + k) = rom[k] :=
  Memory.read_writeBytes_inside (fontImage_wf hfont) (romEnd_le_memSize hrom) hk

theorem resetMemory_read_outside_rom (hrom : rom.length ≤ 3584) (hfont : font.length = 80) {a : Nat}
    (ha : a < 0x200 ∨ 0x200 + rom.length ≤ a) :
    (resetMemory rom font).read a = (Memory.writeBytes [] Config.fontBase font).read a :=
  Memory.read_writeBytes_outside (fontImage_wf hfont) (romEnd_le_memSize hrom) ha

/-- The FONT ends below the ROM, so the ROM overwrites none of it. -/
theorem resetMemory_read_font (hrom : rom.length ≤ 3584) (hfont : font.length = 80) {a : Nat} (ha : a < font.length) :
    (resetMemory rom font).read a = font[a] := by
  rw [resetMemory_read_outside_rom hrom hfont (.inl (by omega))]
  have h := Memory.read_writeBytes_inside (base := Config.fontBase) Memory.wf_nil
    (by simp [Config.fontBase, Config.memSize, hfont]) ha
  rwa [Config.fontBase, Nat.zero_add] at h

/-- Above the FONT and outside the ROM neither image has a byte, and nothing else is listed. -/
theorem resetMemory_read_elsewhere (hrom : rom.length ≤ 3584) (hfont : font.length = 80) {a : Nat} (hlow : 80 ≤ a)
    (ha : a < 0x200 ∨ 0x200 + rom.length ≤ a) : (resetMemory rom font).read a = 0 := by
  have hoff : (Memory.writeBytes [] Config.fontBase font).read a = Memory.read [] a :=
    Memory.read_writeBytes_outside Memory.wf_nil (by simp [Config.fontBase, Config.memSize, hfont])
      (.inr (by simpa [Config.fontBase, hfont] using hlow))
  rw [resetMemory_read_outside_rom hrom hfont ha, hoff, Memory.read_nil, background_of_fontBytes_le hlow]

end

theorem State.reset_reg (k : Reg) : State.reset.reg k = 0 := by simp [State.reg, State.reset]

theorem State.reset_slot (k : Fin 16) : State.reset.slot k = 0 := by simp [State.slot, State.reset]

theorem State.reset_pixel (r : Fin 32) (c : Fin 64) : State.reset.pixel r c = false := Framebuffer.pixel_blank r c

/-- Settles O50: the memory ranges are those of the two images, written one over the other, and every other field is that
of `State.reset`, whatever the state was. -/
theorem resetEstablishesTheImage : Obligations.ResetEstablishesTheImage := by
  intro s rom font hrom hfont
  have hacc : s.applyReset rom font = some ((State.reset.setMem (resetMemory rom font)).setInputs s.inputs) :=
    State.applyReset_eq_some.mpr ⟨⟨decide_eq_true hrom, decide_eq_true hfont⟩, rfl⟩
  refine ⟨_, hacc, State.reset_reg, rfl, rfl, rfl, State.reset_slot, rfl, rfl, fun a ha => ?font,
    fun a hlow ha => ?betweenImages, fun k hk => ?rom, fun a ha _ => ?aboveRom, State.reset_pixel, rfl, rfl⟩
  case font =>
    have hlt : a < font.length := hfont ▸ ha
    exact (congrArg some (resetMemory_read_font hrom hfont hlt)).trans (List.getElem?_eq_getElem hlt).symm
  case betweenImages => exact resetMemory_read_elsewhere hrom hfont hlow (.inl ha)
  case rom => exact (congrArg some (resetMemory_read_rom hrom hfont hk)).trans (List.getElem?_eq_getElem hk).symm
  case aboveRom => exact resetMemory_read_elsewhere hrom hfont (by omega) (.inr ha)

end Sys2Proof.Machine

namespace Sys2Proof.Machine

/-! ### Frames composed update by update -/

theorem Part.unchanged_trans {p : Part} {s t u : State} (h : p.unchanged s t) (h' : p.unchanged t u) :
    p.unchanged s u := by
  cases p
  case stack | mem => exact fun k => (h' k).trans (h k)
  case fb => exact fun r c => (h' r c).trans (h r c)
  all_goals exact Eq.trans h' h

theorem changesOnly.trans {ps : List Part} {rs : List Reg} {s t u : State} (h : changesOnly ps rs s t)
    (h' : changesOnly ps rs t u) : changesOnly ps rs s u :=
  ⟨fun p hp => Part.unchanged_trans (h.1 p hp) (h'.1 p hp), fun r hr => (h'.2 r hr).trans (h.2 r hr)⟩

section
variable {ps : List Part} {rs : List Reg} {s t : State}

theorem changesOnly.setPc (h : changesOnly ps rs s t) (w : Word) : changesOnly ps rs s (t.setPc w) :=
  h.trans (changesOnly_setPc ps rs t w)

theorem changesOnly.advance (h : changesOnly ps rs s t) : changesOnly ps rs s t.advance := h.setPc _

theorem changesOnly.setReg (h : changesOnly ps rs s t) {x : Reg} (hx : x ∈ rs) (b : Byte) :
    changesOnly ps rs s (t.setReg x b) :=
  h.trans (changesOnly_of_fields (.inr rfl) (.inr rfl) (.inr rfl) (.inr rfl) (.inr rfl) (.inr rfl) (.inr rfl) (.inr rfl)
    (.inr rfl) (.inr rfl) fun r hr => t.reg_setReg_other x r b fun e => hr (e ▸ hx))

theorem changesOnly.setSp (h : changesOnly ps rs s t) (hp : Part.sp ∈ ps) (k : Fin 16) :
    changesOnly ps rs s (t.setSp k) :=
  h.trans (changesOnly_of_fields (.inr rfl) (.inl hp) (.inr rfl) (.inr rfl) (.inr rfl) (.inr rfl) (.inr rfl) (.inr rfl)
    (.inr rfl) (.inr rfl) fun _ _ => rfl)

theorem changesOnly.setSlot (h : changesOnly ps rs s t) (hp : Part.stack ∈ ps) (k : Fin 16) (w : Word) :
    changesOnly ps rs s (t.setSlot k w) :=
  h.trans (changesOnly_of_fields (.inr rfl) (.inr rfl) (.inl hp) (.inr rfl) (.inr rfl) (.inr rfl) (.inr rfl) (.inr rfl)
    (.inr rfl) (.inr rfl) fun _ _ => rfl)

theorem changesOnly.setFb (h : changesOnly ps rs s t) (hp : Part.fb ∈ ps) (fb : Framebuffer) :
    changesOnly ps rs s (t.setFb fb) :=
  h.trans (changesOnly_of_fields (.inr rfl) (.inr rfl) (.inr rfl) (.inr rfl) (.inr rfl) (.inr rfl) (.inl hp) (.inr rfl)
    (.inr rfl) (.inr rfl) fun _ _ => rfl)

end

/-! ### The states the instructions leave, each with its frame -/

theorem changesOnly_cls (s : State) : changesOnly [.fb] [] s (s.setFb Framebuffer.blank).advance :=
  ((changesOnly_refl _ _ s).setFb (by decide) _).advance

/-- `CALL` below the maximum depth (R131): the return address in the slot above, `pc` at the target. -/
def State.afterCall (s : State) (nnn : Addr12) : State :=
  ((s.setSp (s.sp + 1)).setSlot (s.sp + 1) (s.pc + 2)).setPc (zextAddr nnn)

theorem exec_call_push {s : State} (nnn : Addr12) (h : s.sp ≠ 15) : exec (.call nnn) s = .next (s.afterCall nnn) :=
  if_neg h

theorem changesOnly_afterCall (s : State) (nnn : Addr12) : changesOnly [.sp, .stack] [] s (s.afterCall nnn) :=
  (((changesOnly_refl _ _ s).setSp (by decide) _).setSlot (by decide) _ _).setPc _

/-- The drawing end of `DRW` (R181): the blitted framebuffer, then the collision flag. -/
def State.afterDraw (s : State) (x y : Reg) (n : Fin 16) : State :=
  ((s.setFb (s.drawn x y n).1).setReg vf (collisionFlag (s.drawn x y n).2)).advance

theorem exec_drw (s : State) (x y : Reg) (n : Fin 16) :
    exec (.drw x y n) s = .next (s.withRange (.drw x y n) n.val (s.afterDraw x y n)) := rfl

theorem changesOnly_afterDraw (s : State) (x y : Reg) (n : Fin 16) :
    changesOnly [.fb] [15] s (s.afterDraw x y n) :=
  (((changesOnly_refl _ _ s).setFb (by decide) _).setReg (by decide) _).advance

/-- The loading end of `LD Vx, [I]` (R213). -/
def State.afterLoad (s : State) (x : Reg) : State :=
  ({ s with v := loadRegsFrom s.v 0 (s.mem.readBytes s.i.toNat (x.val + 1)) } : State).advance

theorem exec_ldVxMem (s : State) (x : Reg) :
    exec (.ldVxMem x) s = .next (s.withRange (.ldVxMem x) (x.val + 1) (s.afterLoad x)) := rfl

theorem State.reg_afterLoad (s : State) (x k : Reg) :
    (s.afterLoad x).reg k = if k.val ≤ x.val then s.readByte (s.i.toNat + k.val) else s.reg k :=
  reg_loadRegs s x k

/-- A load leaves every register above `x` as it was. -/
theorem changesOnly_afterLoad (s : State) (x : Reg) {rs : List Reg} (hrs : ∀ k : Reg, k.val ≤ x.val → k ∈ rs) :
    changesOnly [] rs s (s.afterLoad x) :=
  changesOnly_of_fields (.inr rfl) (.inr rfl) (.inr rfl) (.inr rfl) (.inr rfl) (.inr rfl) (.inr rfl) (.inr rfl)
    (.inr rfl) (.inr rfl) fun k hk => by rw [s.reg_afterLoad, if_neg (mt (hrs k) hk)]

theorem changesOnly_afterRand (s : State) (rs : List Reg) : changesOnly [.inputs] rs s s.afterRand :=
  changesOnly_of_fields (.inr rfl) (.inr rfl) (.inr rfl) (.inr rfl) (.inr rfl) (.inr rfl) (.inr rfl) (.inr rfl)
    (.inr rfl) (.inl (List.mem_singleton_self _)) fun _ _ => rfl

theorem changesOnly_afterKeys (s : State) (rs : List Reg) : changesOnly [.inputs] rs s s.afterKeys :=
  changesOnly_of_fields (.inr rfl) (.inr rfl) (.inr rfl) (.inr rfl) (.inr rfl) (.inr rfl) (.inr rfl) (.inr rfl)
    (.inr rfl) (.inl (List.mem_singleton_self _)) fun _ _ => rfl

theorem changesOnly_rnd (s : State) (x : Reg) (b : Byte) :
    changesOnly [.inputs] [x] s (s.afterRand.setReg x b).advance :=
  ((changesOnly_afterRand s [x]).setReg (List.mem_singleton_self x) b).advance

theorem changesOnly_keySkip (s : State) (c : Bool) : changesOnly [.inputs] [] s (s.afterKeys.skipIf c) :=
  (changesOnly_afterKeys s []).setPc _

theorem changesOnly_keyLoad (s : State) (x : Reg) (b : Byte) :
    changesOnly [.inputs] [x] s (s.afterKeys.setReg x b).advance :=
  ((changesOnly_afterKeys s [x]).setReg (List.mem_singleton_self x) b).advance

theorem changesOnly_raise (s : State) (kind : FatalKind) (opcode : Option Word) (addr : Option Nat) :
    changesOnly [.status, .err] [] s (s.raise kind opcode addr) :=
  let ⟨_, _, _, h⟩ := faultEntry_raise s kind opcode addr
  h

/-! ### Every instruction writes only its own (R23, R35) -/

/-- A range-checked instruction that raises nothing has the frame of its accesses. -/
theorem changesOnly_withRange {ps : List Part} {rs : List Reg} {s t k : State} {ins : Instr} {count : Nat}
    (ht : s.withRange ins count k = t) (hf : t.status ≠ .fault) (hk : changesOnly ps rs s k) :
    changesOnly ps rs s t := by
  subst ht
  rcases s.withRange_cases ins count k with ⟨_, e⟩ | ⟨_, _, e⟩
  · rwa [e]
  · rw [e] at hf
    exact absurd rfl hf

/-- The frame of an instruction that raises nothing, one case for each kind of write it ends by. -/
theorem changesOnly_exec {i : Instr} {s t : State} (h : exec i s = .next t) (hf : t.status ≠ .fault) :
    changesOnly (mayChange i) (mayWriteRegs i) s t := by
  cases i
  case jp nnn =>
    by_cases hself : nnn.toNat = s.pc.toNat
    · cases (exec_jp_self hself).symm.trans h
      exact changesOnly_halt s
    · cases (exec_jp_other hself).symm.trans h
      exact changesOnly_setPc _ _ s _
  case call nnn =>
    by_cases hsp : s.sp = 15
    · cases (exec_call_full nnn hsp).symm.trans h
      exact absurd rfl hf
    · cases (exec_call_push nnn hsp).symm.trans h
      exact changesOnly_afterCall s nnn
  case ret =>
    by_cases hsp : s.sp = 0
    · cases (exec_ret_empty hsp).symm.trans h
      exact absurd rfl hf
    · cases (exec_ret_pop hsp).symm.trans h
      exact changesOnly_setPc_setSp s _ _
  case jpV0 | seImm | sneImm | seReg | sneReg => cases h; exact changesOnly_setPc _ _ s _
  case ldImm | addImm | ldReg | orReg | andReg | xorReg | ldVxDt => cases h; exact changesOnly_setReg_advance s _ _
  case addReg | subReg | shr | subnReg | shl => cases h; exact changesOnly_writeWithFlag s _ _ _
  case ldI | addI | ldF => cases h; exact changesOnly_setI_advance s _
  case ldDtVx => cases h; exact changesOnly_setDt_advance s _
  case ldStVx => cases h; exact changesOnly_setSt_advance s _
  case rnd => cases h; exact changesOnly_rnd s _ _
  case skp | sknp => cases h; exact changesOnly_keySkip s _
  case ldVxK x =>
    cases h
    split
    · exact changesOnly_keyLoad s x _
    · exact changesOnly_afterKeys s _
  case cls => cases h; exact changesOnly_cls s
  case drw x y n => exact changesOnly_withRange (Host.Outcome.next.inj h) hf (changesOnly_afterDraw s x y n)
  case ldB | ldMemVx => exact changesOnly_withRange (Host.Outcome.next.inj h) hf (changesOnly_setMem_advance s _)
  case ldVxMem x =>
    have hlisted (k : Reg) (hk : k.val ≤ x.val) : k ∈ mayWriteRegs (.ldVxMem x) :=
      List.mem_filter.mpr ⟨List.mem_finRange k, decide_eq_true hk⟩
    exact changesOnly_withRange (Host.Outcome.next.inj h) hf (changesOnly_afterLoad s x hlisted)

/-- Settles O46: without a raise the frame is that of the instruction's writes, and each way of raising is fault
entry. -/
theorem everyInstructionWritesOnlyItsOwn : Obligations.EveryInstructionWritesOnlyItsOwn := by
  refine fun i s t hr h => ⟨changesOnly_exec h, fun hf => ?_⟩
  obtain ⟨_, _, _, rfl⟩ | ⟨_, _, rfl⟩ | ⟨_, rfl⟩ := exec_raise_cases hr h hf
  all_goals exact ⟨changesOnly_raise _ _ _ _, rfl⟩

end Sys2Proof.Machine

namespace Sys2Proof

/-! ### The rows of the opcode map as sums (R95) -/

theorem formatNNN_eq_ofNat (t : BitVec 4) (nnn : Addr12) :
    formatNNN t nnn = BitVec.ofNat 16 (t.toNat * 0x1000 + nnn.toNat) := by
  apply BitVec.eq_of_toNat_eq
  rw [formatNNN_toNat, BitVec.toNat_ofNat]
  omega

/-- The word of a format XKK with an immediate: the operands in the order of their fields. -/
theorem formatXKK_eq_ofNat_fields (t : BitVec 4) (x : Reg) (kk : Byte) :
    formatXKK t x kk = BitVec.ofNat 16 (t.toNat * 0x1000 + 0x100 * x.val + kk.toNat) := by
  rw [Machine.formatXKK_eq_ofNat, Nat.add_right_comm]

theorem formatXYN_eq_ofNat_fields (t : BitVec 4) (x y : Reg) (n : BitVec 4) :
    formatXYN t x y n = BitVec.ofNat 16 (t.toNat * 0x1000 + 0x100 * x.val + 0x10 * y.val + n.toNat) := by
  apply BitVec.eq_of_toNat_eq
  rw [formatXYN_toNat, BitVec.toNat_ofNat]
  omega

/-- The word of a format XY as the opcode table writes its rows: the sub-opcode `n` with the opcode, the operands
last. -/
theorem formatXYN_eq_ofNat (t : BitVec 4) (x y : Reg) (n : BitVec 4) :
    formatXYN t x y n = BitVec.ofNat 16 (t.toNat * 0x1000 + n.toNat + 0x100 * x.val + 0x10 * y.val) := by
  rw [formatXYN_eq_ofNat_fields, Nat.add_right_comm, Nat.add_right_comm _ (0x100 * x.val)]

theorem classify_of_encode_eq {i : Instr} {op : Word} (h : encode i = op) : classify op = some i :=
  h ▸ classify_encode i

/-- Settles O4: each row is the sum that its format writes for its instruction's encoding. -/
theorem opcodeMapSelectsTheInstruction : Obligations.OpcodeMapSelectsTheInstruction := by
  have row {i : Instr} {op : Word} : encode i = op → classify op = some i := classify_of_encode_eq
  refine ⟨classify_encode .cls, classify_encode .ret, fun nnn => ?nnn, fun x kk => ?xkk, fun x y => ?xy,
    fun x y n => row (formatXYN_eq_ofNat_fields 0xD#4 x y (regBits n)), fun x => ?x⟩
  case nnn =>
    have nnnRow (t : BitVec 4) := formatNNN_eq_ofNat t nnn
    exact ⟨row (nnnRow 0x1#4), row (nnnRow 0x2#4), row (nnnRow 0xA#4), row (nnnRow 0xB#4)⟩
  case xkk =>
    have immRow (t : BitVec 4) := formatXKK_eq_ofNat_fields t x kk
    exact ⟨row (immRow 0x3#4), row (immRow 0x4#4), row (immRow 0x6#4), row (immRow 0x7#4), row (immRow 0xC#4)⟩
  case xy =>
    have xyRow (t n : BitVec 4) := formatXYN_eq_ofNat t x y n
    exact ⟨row (xyRow 0x5#4 0x0#4), row (xyRow 0x8#4 0x0#4), row (xyRow 0x8#4 0x1#4), row (xyRow 0x8#4 0x2#4),
      row (xyRow 0x8#4 0x3#4), row (xyRow 0x8#4 0x4#4), row (xyRow 0x8#4 0x5#4), row (xyRow 0x8#4 0x6#4),
      row (xyRow 0x8#4 0x7#4), row (xyRow 0x8#4 0xE#4), row (xyRow 0x9#4 0x0#4)⟩
  case x =>
    have xRow (t : BitVec 4) (kk : Byte) := Machine.formatXKK_eq_ofNat t x kk
    exact ⟨row (xRow 0xE#4 0x9E#8), row (xRow 0xE#4 0xA1#8), row (xRow 0xF#4 0x07#8), row (xRow 0xF#4 0x0A#8),
      row (xRow 0xF#4 0x15#8), row (xRow 0xF#4 0x18#8), row (xRow 0xF#4 0x1E#8), row (xRow 0xF#4 0x29#8),
      row (xRow 0xF#4 0x33#8), row (xRow 0xF#4 0x55#8), row (xRow 0xF#4 0x65#8)⟩

/-! ### The unrecognised words (R97) -/

theorem topNibble_eq_iff {op : Word} {t : BitVec 4} : topNibble op = t ↔ op.toNat / 0x1000 = t.toNat := by
  rw [← BitVec.toNat_inj, topNibble_toNat, Nat.mod_eq_of_lt (by omega)]

theorem bottomNibble_eq_iff {op : Word} {n : BitVec 4} : bottomNibble op = n ↔ op.toNat % 16 = n.toNat := by
  rw [← BitVec.toNat_inj, bottomNibble_toNat]

theorem kkField_eq_iff {op : Word} {kk : Byte} : kkField op = kk ↔ op.toNat % 256 = kk.toNat := by
  rw [← BitVec.toNat_inj, kkField_toNat]

theorem classifyAlu_eq_none_iff {op : Word} :
    classifyAlu op = none ↔ op.toNat % 16 ∈ [0x8, 0x9, 0xA, 0xB, 0xC, 0xD, 0xF] := by
  unfold classifyAlu
  split
  case h_10 =>
    simp only [imp_false, bottomNibble_eq_iff, BitVec.toNat_ofNat, Nat.reducePow, Nat.reduceMod] at *
    simp only [true_iff, List.mem_cons, List.not_mem_nil, or_false]
    omega
  all_goals simp_all [bottomNibble_eq_iff]

theorem classifyKeys_eq_none_iff {op : Word} : classifyKeys op = none ↔ op.toNat % 256 ∉ [0x9E, 0xA1] := by
  unfold classifyKeys
  split <;> simp_all [kkField_eq_iff]

theorem classifyMisc_eq_none_iff {op : Word} :
    classifyMisc op = none ↔ op.toNat % 256 ∉ [0x07, 0x0A, 0x15, 0x18, 0x1E, 0x29, 0x33, 0x55, 0x65] := by
  unfold classifyMisc
  split <;> simp_all [kkField_eq_iff]

/-- Settles O5: the top nibble selects one family at most; under 5, 8, 9, E and F its condition is that of the
sub-classification, and every other top nibble but 0 is recognised. -/
theorem unrecognisedWordsAreThoseOfTheTable : Obligations.UnrecognisedWordsAreThoseOfTheTable := by
  intro op
  have hlow : op.toNat < 0x1000 ↔ op.toNat / 0x1000 = 0 := by omega
  rw [hlow]
  unfold classify
  split
  case h_17 =>
    simp only [imp_false, topNibble_eq_iff, BitVec.toNat_ofNat, Nat.reducePow, Nat.reduceMod] at *
    omega
  all_goals
    rename_i ht
    rw [topNibble_eq_iff] at ht
  case h_1 => simp [ht, ite_eq_iff]
  case h_6 | h_10 => simp [ht, bottomNibble_eq_iff]
  case h_9 => simp [ht, classifyAlu_eq_none_iff]
  case h_15 => simp [ht, classifyKeys_eq_none_iff]
  case h_16 => simp [ht, classifyMisc_eq_none_iff]
  all_goals simp [ht]

end Sys2Proof

namespace Sys2Proof.Machine

theorem completes.imp {i : Instr} {s : State} {P Q : State → Prop} (h : completes i s P) (hPQ : ∀ t, P t → Q t) :
    completes i s Q :=
  let ⟨t, ht, hP⟩ := h
  ⟨t, ht, hPQ t hP⟩

/-! ### `CALL nnn`, the return to it, and `JP V0, nnn` (R131 to R133) -/

theorem State.slot_afterCall (s : State) (nnn : Addr12) (k : Fin 16) :
    (s.afterCall nnn).slot k = if s.sp + 1 = k then s.pc + 2 else s.slot k :=
  State.slot_setSlot (s.setSp (s.sp + 1)) (s.sp + 1) k (s.pc + 2)

/-- Settles O14: below the maximum depth the increment of `SP` does not wrap, and only the slot it indexes is
written. -/
theorem callPushesReturnAddress : Obligations.CallPushesReturnAddress := by
  intro s nnn hsp
  have hne : s.sp ≠ 15 := fun h => absurd (h ▸ hsp) (by decide)
  have hsucc : (s.sp + 1).val = s.sp.val + 1 := Fin.val_add_one_of_lt' (by omega)
  refine ⟨_, exec_call_push nnn hne, hsucc, ?_, fun k hk => ?_, zextAddr_toNat nnn, changesOnly_afterCall s nnn⟩
  · exact (s.slot_afterCall nnn _).trans (if_pos rfl)
  · exact (s.slot_afterCall nnn k).trans (if_neg (Ne.symm hk))

/-- Settles O17: the slot that `RET` pops is the one that `CALL` wrote, and the decrement of `SP` undoes the
increment. -/
theorem returnComesBackToAfterTheCall : Obligations.ReturnComesBackToAfterTheCall := by
  intro s nnn hsp
  refine (callPushesReturnAddress s nnn hsp).imp fun t ⟨hdepth, hpushed, _⟩ u husp huslot => ?_
  have hnonempty : u.sp.val ≠ 0 := by omega
  refine ((returnPopsThePc u).1 hnonempty).imp fun w ⟨hpc, hwsp, _⟩ => ⟨?_, Fin.ext ?_⟩
  · rw [hpc, husp, huslot, hpushed]
  · omega

/-- Settles O18: the sum is at most 4350, so that 16 bits hold it, and no branch compares it with `pc`. -/
theorem jumpV0AddsRegisterZero : Obligations.JumpV0AddsRegisterZero :=
  fun s nnn => ⟨_, rfl, jumpTarget_toNat nnn (s.reg 0), changesOnly_setPc _ _ s _⟩

/-! ### Logic, shifts and adds (R152 to R154, R157, R159, R171, R173) -/

theorem completes_setReg_bits {i : Instr} {s : State} {x : Reg} {b : Byte} {bits : Nat → Bool}
    (h : exec i s = .next (s.setReg x b).advance) (hb : ∀ k, b.getLsbD k = bits k) :
    completes i s fun t => (∀ k, (t.reg x).getLsbD k = bits k) ∧ t.pc = s.pc + 2 ∧ changesOnly [] [x] s t :=
  (completes_setReg h).imp fun _ ⟨hreg, hpc, hframe⟩ => ⟨fun k => hreg ▸ hb k, hpc, hframe⟩

/-- Settles O21: each of the three is one register write of a bitwise operation. -/
theorem logicOperationsAreBitwise : Obligations.LogicOperationsAreBitwise :=
  fun _ _ _ => ⟨completes_setReg_bits rfl fun _ => BitVec.getLsbD_or,
    completes_setReg_bits rfl fun _ => BitVec.getLsbD_and, completes_setReg_bits rfl fun _ => BitVec.getLsbD_xor⟩

theorem lowBitFlag_toNat (v : Byte) : (lowBitFlag v).toNat = v.toNat % 2 := by
  simp only [lowBitFlag_eq, flagByte_toNat, decide_eq_true_eq]
  split <;> omega

theorem highBitFlag_toNat (v : Byte) : (highBitFlag v).toNat = v.toNat / 128 := by
  simp only [highBitFlag_eq, flagByte_toNat, decide_eq_true_eq]
  split <;> omega

theorem completes_writeWithFlag_toNat {i : Instr} {s : State} {x : Reg} {result flag : Byte} {a b : Nat}
    (h : exec i s = .next (s.writeWithFlag x result flag)) (hresult : result.toNat = a) (hflag : flag.toNat = b) :
    completes i s fun t =>
      (x ≠ 15 → (t.reg x).toNat = a) ∧ (t.reg 15).toNat = b ∧ t.pc = s.pc + 2 ∧ changesOnly [] [x, 15] s t :=
  (completes_writeWithFlag h).imp fun _ ⟨hreg, hvf, hpc, hframe⟩ =>
    ⟨fun hx => hreg hx ▸ hresult, hvf ▸ hflag, hpc, hframe⟩

theorem shiftLeft8_toNat_eq_two_mul (v : Byte) : (shiftLeft8 v).toNat = 2 * v.toNat % 256 := by
  rw [shiftLeft8_toNat, Nat.mul_comm]

/-- Settles O25: the shifted operand is the result, and the bit shifted out is the flag. -/
theorem shiftsWriteResultAndBitOut : Obligations.ShiftsWriteResultAndBitOut :=
  fun _ _ _ => ⟨completes_writeWithFlag_toNat rfl (shiftRight8_toNat _) (lowBitFlag_toNat _),
    completes_writeWithFlag_toNat rfl (shiftLeft8_toNat_eq_two_mul _) (highBitFlag_toNat _)⟩

/-- Settles O26: one write of `V[x]` and one of `I`, each of a sum reduced to its width. -/
theorem immediateAndIndexAddsLeaveTheFlag : Obligations.ImmediateAndIndexAddsLeaveTheFlag := by
  intro s x kk
  constructor
  · refine (completes_setReg rfl).imp fun t ⟨hreg, hpc, hframe⟩ => ⟨?_, hpc, hframe⟩
    rw [hreg, add8_toNat]
  · refine (completes_setI rfl).imp fun t ⟨hi, hpc, hframe⟩ => ⟨?_, hpc, hframe⟩
    rw [hi, addIndex_toNat]

/-! ### `RND Vx, kk` (R174) -/

theorem State.nextRand_of_cons {s : State} {r : Byte} {rest : List Byte} (h : s.inputs.rand = r :: rest) :
    s.nextRand = r := by
  simp only [State.nextRand, h]

/-- Settles O28: one draw, then one register write of the drawn byte under the mask. -/
theorem randomByteIsMasked : Obligations.RandomByteIsMasked := by
  refine fun s x kk => ⟨fun r rest => State.nextRand_of_cons, _, rfl, fun b => ?_, rfl, rfl, changesOnly_rnd s x _⟩
  rw [reg_setReg_advance_self, BitVec.getLsbD_and]

/-! ### `LD F, Vx` (R210) -/

/-- Settles O37: the glyph address is one write of `I`, and a digit is at most 15. -/
theorem fontAddressIsFiveTimesTheDigit : Obligations.FontAddressIsFiveTimesTheDigit := by
  intro s x
  refine (completes_setI rfl).imp fun t ⟨hi, hpc, hframe⟩ => ?_
  have haddr : t.i.toNat = 5 * ((s.reg x).toNat % 16) := by rw [hi, glyphAddress_toNat]
  exact ⟨haddr, by omega, hpc, hframe⟩

/-! ### The keys (R190 to R193) -/

theorem keyDown_eq_true_iff {sample : KeySample} {k : Byte} :
    keyDown sample k = true ↔ ∃ key ∈ sample, key.val = k.toNat := by
  simp only [keyDown, List.any_eq_true, decide_eq_true_eq]

theorem keyDown_eq_false_iff {sample : KeySample} {k : Byte} :
    keyDown sample k = false ↔ ¬ ∃ key ∈ sample, key.val = k.toNat := by
  rw [← keyDown_eq_true_iff, Bool.not_eq_true]

theorem keyDown_of_mem {sample : KeySample} {key : Key} (h : key ∈ sample) :
    keyDown sample (BitVec.ofNat 8 key.val) = true := by
  refine keyDown_eq_true_iff.mpr ⟨key, h, ?_⟩
  rw [BitVec.toNat_ofNat]
  omega

/-- Settles O32: the reported key is one of the sample, so a sample with a key down is one that reports, and every key
of a sample is at most 15. -/
theorem keyQueriesAgree : Obligations.KeyQueriesAgree := by
  intro sample
  refine ⟨fun k hk => keyDown_of_mem (List.mem_of_head? hk), ⟨fun hnone k => ?_, fun hup => ?_⟩, fun k hk => ?_⟩
  · rw [List.head?_eq_none_iff.mp hnone]
    rfl
  · cases sample with
    | nil => rfl
    | cons key rest =>
      have hdown : keyDown (key :: rest) (BitVec.ofNat 8 key.val) = true := keyDown_of_mem List.mem_cons_self
      rw [hup] at hdown
      cases hdown
  · rw [keyDown_eq_false_iff]
    rintro ⟨key, _, hkey⟩
    omega

theorem completes_keySkip_taken {i : Instr} {s : State} {c : Bool} (h : exec i s = .next (s.afterKeys.skipIf c))
    (hc : c = true) :
    completes i s fun t => t.pc = s.pc + 4 ∧ t.inputs = s.afterKeys.inputs ∧ changesOnly [.inputs] [] s t :=
  ⟨_, h, if_pos hc, rfl, changesOnly_keySkip s c⟩

theorem completes_keySkip_not_taken {i : Instr} {s : State} {c : Bool} (h : exec i s = .next (s.afterKeys.skipIf c))
    (hc : ¬ c = true) :
    completes i s fun t => t.pc = s.pc + 2 ∧ t.inputs = s.afterKeys.inputs ∧ changesOnly [.inputs] [] s t :=
  ⟨_, h, if_neg hc, rfl, changesOnly_keySkip s c⟩

/-- Settles O33: `SKP` skips on the key query of its sample and `SKNP` on its negation. -/
theorem keySkipsFollowTheSample : Obligations.KeySkipsFollowTheSample := by
  intro s x
  constructor
  · intro hdown
    have hquery : keyDown s.nextKeys (s.reg x) = true := keyDown_eq_true_iff.mpr hdown
    exact ⟨completes_keySkip_taken rfl hquery, completes_keySkip_not_taken rfl (by simp [hquery])⟩
  · intro hup
    have hquery : keyDown s.nextKeys (s.reg x) = false := keyDown_eq_false_iff.mpr hup
    exact ⟨completes_keySkip_not_taken rfl (by simp [hquery]), completes_keySkip_taken rfl (by simp [hquery])⟩

theorem exec_ldVxK_of_cons {s : State} {k : Key} {rest : KeySample} (x : Reg) (h : s.nextKeys = k :: rest) :
    exec (.ldVxK x) s = .next (s.afterKeys.setReg x (BitVec.ofNat 8 k.val)).advance := by
  simp only [exec, execLdVxK, h, anyKey, List.head?_cons]

theorem exec_ldVxK_of_nil {s : State} (x : Reg) (h : s.nextKeys = []) : exec (.ldVxK x) s = .next s.afterKeys := by
  simp only [exec, execLdVxK, h, anyKey, List.head?_nil]

/-- Settles O34: the two clauses are the two answers of `AnyKey`; a key number fits a byte. -/
theorem keyWaitLoadsOrRepeats : Obligations.KeyWaitLoadsOrRepeats := by
  intro s x
  constructor
  · intro k rest hkeys
    refine ⟨_, exec_ldVxK_of_cons x hkeys, ?_, rfl, rfl, changesOnly_keyLoad s x _⟩
    rw [reg_setReg_advance_self, BitVec.toNat_ofNat]
    omega
  · intro hkeys
    exact ⟨_, exec_ldVxK_of_nil x hkeys, rfl, rfl, changesOnly_afterKeys s []⟩

end Sys2Proof.Machine

namespace Sys2Proof.Machine

/-! ### Display (R180, R181, R182) -/

/-- Settles O29: the blank framebuffer is the only write. -/
theorem clearScreenZeroesEveryPixel : Obligations.ClearScreenZeroesEveryPixel :=
  fun s => ⟨_, rfl, Framebuffer.pixel_blank, rfl, changesOnly_cls s⟩

theorem State.reg_vf_afterDraw (s : State) (x y : Reg) (n : Fin 16) :
    (s.afterDraw x y n).reg 15 = flagByte (s.drawn x y n).2 :=
  reg_setReg_advance_self (s.setFb (s.drawn x y n).1) vf _

theorem flagByte_eq_zero (b : Bool) : flagByte b = 0 ↔ ¬ b = true := by cases b <;> simp [flagByte]

/-- `DRW` in range, with each value of the flag characterised. -/
theorem completes_drw {s : State} (x y : Reg) {n : Fin 16} (hin : n.val = 0 ∨ s.i.toNat + (n.val - 1) ≤ 4095) :
    completes (.drw x y n) s fun t =>
      (∀ r c, (spriteCovers s x y n.val r c → t.pixel r c = !s.pixel r c) ∧
        (¬ spriteCovers s x y n.val r c → t.pixel r c = s.pixel r c)) ∧
      (t.reg 15 = 1 ↔ ∃ r c, spriteCovers s x y n.val r c ∧ s.pixel r c = true) ∧
      (t.reg 15 = 0 ↔ ¬ ∃ r c, spriteCovers s x y n.val r c ∧ s.pixel r c = true) ∧
      t.pc = s.pc + 2 ∧ changesOnly [.fb] [15] s t := by
  refine ⟨s.afterDraw x y n, ?_, s.pixel_drawn x y n, ?_, ?_, rfl, changesOnly_afterDraw s x y n⟩
  · rw [exec_drw, State.withRange_inside hin]
  · rw [s.reg_vf_afterDraw, flagByte_eq_one, s.hit_drawn]
  · rw [s.reg_vf_afterDraw, flagByte_eq_zero, s.hit_drawn]

/-- Settles O30: the blit inverts exactly the covered pixels, and its hit is the flag. -/
theorem drawInvertsExactlyTheSprite : Obligations.DrawInvertsExactlyTheSprite :=
  fun _ x y _ hin => (completes_drw x y hin).imp fun _ ⟨hpixels, hone, hzero, hpc, hframe⟩ =>
    ⟨hpixels, hone.mpr, hzero.mpr, hpc, hframe⟩

/-- The place of a sprite depends on the reduced coordinates, its shape on `I` and the bytes there. -/
theorem spriteCovers_congr {s t : State} {x y : Reg} (hi : t.i = s.i) (hmem : ∀ a, t.readByte a = s.readByte a)
    (hx : (t.reg x).toNat % 64 = (s.reg x).toNat % 64) (hy : (t.reg y).toNat % 32 = (s.reg y).toNat % 32)
    (n : Nat) (r : Fin 32) (c : Fin 64) : spriteCovers t x y n r c ↔ spriteCovers s x y n r c := by
  simp only [spriteCovers, hi, hmem, hx, hy]

/-- Settles O31: the first draw leaves `I` and memory, so that the second covers the same pixels and inverts each of
them back; a covered pixel is set before the second draw exactly if it was clear before the first. -/
theorem drawingTwiceRestoresTheScreen : Obligations.DrawingTwiceRestoresTheScreen := by
  intro s x y n hin
  refine (completes_drw x y hin).imp fun t ⟨hpixels, hone, hzero, _, hframe⟩ => ⟨hone, fun hx hy => ?_⟩
  have hi : t.i = s.i := hframe.1 .index (by decide)
  have hcovers := spriteCovers_congr hi (hframe.1 .mem (by decide)) hx hy n.val
  rw [← hi] at hin
  refine (completes_drw x y hin).imp fun u ⟨hpixels', hone', hzero', _⟩ => ?_
  simp only [hcovers] at hpixels' hone' hzero'
  refine ⟨fun r c => ?restored, ?secondFlag, fun hblank => ⟨hzero.mpr ?_, hzero'.mpr ?_⟩⟩
  case restored =>
    by_cases hc : spriteCovers s x y n.val r c
    · rw [(hpixels' r c).1 hc, (hpixels r c).1 hc, Bool.not_not]
    · rw [(hpixels' r c).2 hc, (hpixels r c).2 hc]
  case secondFlag =>
    have hset (r c) (hc : spriteCovers s x y n.val r c) : t.pixel r c = true ↔ s.pixel r c = false := by
      rw [(hpixels r c).1 hc, Bool.not_eq_true']
    rw [hone']
    exact exists_congr fun r => exists_congr fun c => and_congr_right (hset r c)
  all_goals exact fun ⟨r, c, hc, _⟩ => hblank r c hc

end Sys2Proof.Machine

namespace Sys2Proof.Machine

/-! ### Register dump and register load (R212, R213) -/

theorem State.getElem_regsUpTo (s : State) (x k : Reg) (h : k.val < (s.regsUpTo x).length) :
    (s.regsUpTo x)[k.val] = s.reg k := by
  rw [← Option.some_inj, ← List.getElem?_eq_getElem, s.getElem?_regsUpTo x k]
  rw [s.length_regsUpTo] at h
  omega

/-- Settles O39: the dump is a checked store of the registers up to `x`. -/
theorem registerDumpStoresUpToX : Obligations.RegisterDumpStoresUpToX := by
  intro s x hm hin
  have hlen := s.length_regsUpTo x
  have hexec : exec (.ldMemVx x) s = .next (s.withRange (.ldMemVx x) (s.regsUpTo x).length
      (s.setMem (s.mem.writeBytes s.i.toNat (s.regsUpTo x))).advance) := by rw [hlen]; rfl
  refine (completes_store hm (by omega) hexec).imp fun t ⟨hstored, hother, hpc, hframe⟩ =>
    ⟨fun k hk => ?_, fun a ha => hother a (by omega), hpc, hframe⟩
  rw [hstored k.val (by omega), s.getElem_regsUpTo]

/-- Settles O40: in range the load replaces the registers up to `x` alone. -/
theorem registerLoadReadsUpToX : Obligations.RegisterLoadReadsUpToX := by
  intro s x hin
  refine ⟨s.afterLoad x, ?_, fun k hk => ?_, fun k hk => ?_, rfl,
    changesOnly_afterLoad s x fun k _ => List.mem_finRange k⟩
  · rw [exec_ldVxMem, State.withRange_inside (.inr hin)]
  · rw [s.reg_afterLoad, if_pos hk]
  · rw [s.reg_afterLoad, if_neg (Nat.not_le.mpr hk)]

/-- Settles O41: the dump leaves `I`, so that the load reads the bytes that the dump stored. -/
theorem loadAfterDumpRestoresRegisters : Obligations.LoadAfterDumpRestoresRegisters := by
  intro s x hm hin
  refine (registerDumpStoresUpToX s x hm hin).imp fun t ⟨hstored, _, _, hframe⟩ u hui hubytes => ?_
  have hi : u.i = s.i := hui.trans (hframe.1 .index (by decide))
  refine (registerLoadReadsUpToX u x (hi ▸ hin)).imp fun w ⟨hloaded, _⟩ k hk => ?_
  rw [hloaded k hk, hubytes, hi, hstored k hk]

theorem encode_drw (x y : Reg) (n : Fin 16) :
    encode (.drw x y n) = BitVec.ofNat 16 (0xD000 + 0x100 * x.val + 0x10 * y.val + n.val) :=
  formatXYN_eq_ofNat_fields 0xD#4 x y (regBits n)

theorem encode_ldMemVx (x : Reg) : encode (.ldMemVx x) = BitVec.ofNat 16 (0xF055 + 0x100 * x.val) :=
  formatXKK_eq_ofNat 0xF#4 x 0x55#8

theorem encode_ldVxMem (x : Reg) : encode (.ldVxMem x) = BitVec.ofNat 16 (0xF065 + 0x100 * x.val) :=
  formatXKK_eq_ofNat 0xF#4 x 0x65#8

/-- Settles O42: each of the three fails its range check before its accesses, and raises with its own word. -/
theorem dataRangeFaultsWriteNothing : Obligations.DataRangeFaultsWriteNothing := by
  intro s x y n
  rw [← encode_drw, ← encode_ldMemVx, ← encode_ldVxMem]
  exact ⟨fun hrows hout => completes_withRange_outside hrows hout (exec_drw s x y n), fun hout =>
    ⟨completes_withRange_outside (Nat.succ_ne_zero _) hout rfl,
      completes_withRange_outside (Nat.succ_ne_zero _) hout (exec_ldVxMem s x)⟩⟩

/-- Settles O43: the two stored bytes stand where the next fetch reads, and inside `MEM` the advanced `pc` does not
wrap. -/
theorem storedWordIsFetchedNext : Obligations.StoredWordIsFetchedNext := by
  intro s x j k hm hin hjk hkx hplace
  refine (registerDumpStoresUpToX s x hm hin).imp fun t ⟨hstored, _, hpc, _⟩ => ?_
  have hnext : t.pc.toNat = s.i.toNat + j.val := by
    rw [hpc, hplace]
    bv_omega
  refine State.fetch_eq_some.mpr ⟨by omega, ?_⟩
  rw [hnext, Nat.add_assoc, ← hjk, hstored j (by omega), hstored k hkx]

/-! ### The records of the fatal conditions (R220) -/

/-- Settles O45: every way into `FAULT` writes its own record, and the word of an instruction that raises is the word
fetched. -/
theorem faultRecordsFollowTheTable : Obligations.FaultRecordsFollowTheTable := by
  intro s t e h hfault herr
  obtain ⟨hr, ⟨_, rfl⟩ | ⟨_, hf, rfl⟩ | ⟨op, _, hf, hi, rfl⟩ | ⟨op, i, _, hf, hi, hexec⟩⟩ := step_cases h
  · have hrunning : s.afterAgent.tick.status = .running := hr
    rw [hrunning] at hfault
    cases hfault
  · cases herr
    exact ⟨rfl, .inl ⟨hf, rfl, rfl⟩⟩
  · cases herr
    exact ⟨rfl, op, hf, hi, rfl, rfl⟩
  · obtain rfl : encode i = op := encodeOfClassifiedWordIsTheWord op i hi
    obtain ⟨nnn, rfl, hsp, rfl⟩ | ⟨rfl, hsp, rfl⟩ | ⟨haccess, rfl⟩ :=
      exec_raise_cases (s := s.afterAgent) hr hexec hfault
    all_goals cases herr
    · exact ⟨rfl, _, nnn, hf, hi, hsp, rfl, rfl⟩
    · exact ⟨rfl, hf, hsp, rfl, rfl⟩
    · exact ⟨rfl, .inr ⟨_, i, hf, hi, rfl, haccess, rfl⟩⟩

end Sys2Proof.Machine
